-- ==== Sys2Proof/Word.lean ====
section
/-! DEFINITION. The limb, the one word of the block (10_state.md R21), and the multi-limb value as
plain data (R22). Lengths are checked in WellFormed.lean, since `N` is a parameter. -/

namespace Sys2Proof

/-- R21, R4: "an unsigned 64-bit integer; the atomic unit of representation". -/
abbrev Limb := BitVec 64

/-- R22, R12: a sequence of limbs, least significant limb first. Its length is `N` where the spec
asks for a multi-limb value and `2N` in `rsp.r`. -/
abbrev Value := List Limb

end Sys2Proof
end

