-- ==== Sys2Proof/Machine/Limbs.lean ====
section
/-! DEFINITION. The pseudocode primitives of 00_scope.md R11 to R13: bit slices, `val`, `limbs_N`, a
limb by its index, and the 64-bit shifts. `zext_K` is `BitVec.zeroExtend`; `and64`, `or64`, `xor64`
and `not64` are the bit vector operations themselves. -/

namespace Sys2Proof

/-- R11: `v[hi:lo] = (v div 2^lo) mod 2^(hi-lo+1)`. -/
def slice (v hi lo : Nat) : Nat := v / 2 ^ lo % 2 ^ (hi - lo + 1)

/-- R12: `val(a) = a[0] + a[1]·2^64 + ...`, the unsigned number a sequence of limbs stands for. -/
def val : Value → Nat
  | [] => 0
  | x :: xs => x.toNat + 2 ^ 64 * val xs

/-- R12: `limbs_n(v)`: limb `i` is `(v div 2^(64·i)) mod 2^64`. R12 defines it for `v < 2^(64·n)`; that a
greater `v` gives its `n` low limbs, those of `v mod 2^(64·n)`, is the model's choice (DESIGN CHOICE, log
entry 19). -/
def limbsN : Nat → Nat → Value
  | 0, _ => []
  | n + 1, v => BitVec.ofNat 64 v :: limbsN n (v / 2 ^ 64)

/-- R12: `a[i]`. An index past the end reads zero; no rule reaches one. -/
def limb (a : Value) (i : Nat) : Limb := a.getD i 0#64

/-- R13: `shl64(v, k) = (v · 2^k) mod 2^64`. The spec leaves `k > 63` undefined and never reaches it
(44_shift.md R179); here it gives zero, log entry 12. -/
def shl64 (v : Limb) (k : Nat) : Limb := BitVec.ofNat 64 (v.toNat * 2 ^ k)

/-- R13: `shr64(v, k) = v div 2^k`, total as `shl64` is (log entry 12). -/
def shr64 (v : Limb) (k : Nat) : Limb := BitVec.ofNat 64 (v.toNat / 2 ^ k)

end Sys2Proof
end

