-- ==== Sys2Proof/Config.lean ====
section
/-! DEFINITION. What is fixed when the block is built: the limb count `N` and the Capability Flag
`CAP` (00_scope.md R5, R8). The spec leaves both open as parameters (92_eei_decisions.md D3, D17);
no output of the block is left open, so there is no free value. -/

namespace Sys2Proof

/-- R8, R25: the Capability Flag, which selects the build of unit U1. -/
inductive Cap
  | native
  | generic
  deriving DecidableEq, Repr

/-- The parameters of one instance of the block. `limbs_pos` is R5 ("a positive integer");
`width_lt` is R155 ("64·N < 2^64 for every buildable N"), log entry 4. -/
structure Config where
  limbs : Nat
  cap : Cap
  limbs_pos : 0 < limbs
  width_lt : 64 * limbs < 2 ^ 64
  deriving DecidableEq, Repr

/-- R6: `W = 64 * N`, the total bit width of a multi-limb value. -/
abbrev Config.width (c : Config) : Nat := 64 * c.limbs

/-- The instance `State.reset` is built for. DESIGN CHOICE, unsafe (log entry 3): the spec leaves
`N` and `CAP` open; `N = 2` is the first width the source names. -/
def Config.atReset : Config := ⟨2, .native, by decide, by decide⟩

end Sys2Proof
end

