-- ==== Sys2Proof/Syntax.lean ====
section
/-! DEFINITION. The records and the operations: operand fields, the twelve instructions, the command
record (10_state.md R26) and the response record (R27). -/

namespace Sys2Proof

/-- The operand fields of a command (R26). Every operation travels in the same record; which fields
it reads is `Mnemonic.reads` (R62). -/
structure Operands where
  a : Value
  b : Value
  sh : BitVec 64
  deriving DecidableEq, Repr

/-- The command record (R26): the operation select and the operand fields. -/
structure Cmd where
  op : BitVec 4
  a : Value
  b : Value
  sh : BitVec 64
  deriving DecidableEq, Repr

/-- The operand fields of a command. -/
def Cmd.operands (c : Cmd) : Operands := ⟨c.a, c.b, c.sh⟩

/-- The response record (R27): `2N` limbs, least significant first, and the carry or borrow out. -/
structure Rsp where
  r : Value
  cout : Bool
  deriving DecidableEq, Repr

/-- The twelve operation names of R61. -/
inductive Mnemonic
  | mulfull | add | sub | not | and | or | xor | clz | shl | lsr | mul | mulx
  deriving DecidableEq, Repr

/-- The instructions: one constructor for each row of the operation table (R61), each carrying the
whole operand record, ignored fields included (R65). -/
inductive Instr
  | mulfull (o : Operands)
  | add (o : Operands)
  | sub (o : Operands)
  | not (o : Operands)
  | and (o : Operands)
  | or (o : Operands)
  | xor (o : Operands)
  | clz (o : Operands)
  | shl (o : Operands)
  | lsr (o : Operands)
  | mul (o : Operands)
  | mulx (o : Operands)
  deriving DecidableEq, Repr

/-- The operand record an instruction carries. -/
def Instr.operands : Instr → Operands
  | .mulfull o => o
  | .add o => o
  | .sub o => o
  | .not o => o
  | .and o => o
  | .or o => o
  | .xor o => o
  | .clz o => o
  | .shl o => o
  | .lsr o => o
  | .mul o => o
  | .mulx o => o

/-- Which operation an instruction is. -/
def Instr.mnemonic : Instr → Mnemonic
  | .mulfull _ => .mulfull
  | .add _ => .add
  | .sub _ => .sub
  | .not _ => .not
  | .and _ => .and
  | .or _ => .or
  | .xor _ => .xor
  | .clz _ => .clz
  | .shl _ => .shl
  | .lsr _ => .lsr
  | .mul _ => .mul
  | .mulx _ => .mulx

end Sys2Proof
end

