-- ==== Sys2Proof/WellFormed.lean ====
section
/-! DEFINITION. Well-formedness: a command or an instruction for a block of `n` limbs carries exactly
`n` limbs in each multi-limb operand (10_state.md R22, R26; 70_reset_and_hazards.md R252). Every
combination of limb values is legal (R22), and so is every shift amount (44_shift.md R170). -/

namespace Sys2Proof

/-- R22: both multi-limb operands have exactly `n` limbs, the ignored ones included (the command
has one format of fixed length, R60). -/
def Operands.wf (n : Nat) (o : Operands) : Bool := o.a.length == n && o.b.length == n

/-- An instruction of a block of `n` limbs. -/
def Instr.wf (n : Nat) (i : Instr) : Bool := i.operands.wf n

/-- A command of a block of `n` limbs; its `op` may be a reserved code, which only decoding looks at. -/
def Cmd.wf (n : Nat) (c : Cmd) : Bool := c.operands.wf n

/-- A response of a block of `n` limbs: `rsp.r` has `2n` limbs (R27). -/
def Rsp.wf (n : Nat) (r : Rsp) : Bool := r.r.length == 2 * n

end Sys2Proof
end

