-- ==== Sys2Proof/Decode.lean ====
section
/-! DEFINITION. Encoding (30_encoding.md): the command vector (R60) and the response vector (R63), the
operation codes (R61), the fields each operation reads (R62), the decoder, which refuses the reserved
codes (R64), and the encoder. A command for a block of `n` limbs is one vector of `4 + 64 + 2·W` bits;
the block has no bytes (20_memory.md R43). -/

namespace Sys2Proof

/-- Why the decoder refuses a command. -/
inductive Reject
  /-- R64: `op` is one of 0xC to 0xF. -/
  | reservedOp (op : BitVec 4)
  deriving DecidableEq, Repr

/-- R60: the length of a command vector. -/
def cmdBits (n : Nat) : Nat := 4 + 64 + 2 * (64 * n)

/-- R63: the length of a response vector. -/
def rspBits (n : Nat) : Nat := 1 + 2 * (64 * n)

/-- R60 read: the fields of the command whose vector has the bits of the number `v`. -/
def unpackNat (n v : Nat) : Cmd where
  op := BitVec.ofNat 4 (slice v 3 0)
  sh := BitVec.ofNat 64 (slice v 67 4)
  a := limbsN n (slice v (68 + 64 * n - 1) 68)
  b := limbsN n (slice v (68 + 2 * (64 * n) - 1) (68 + 64 * n))

/-- R60 read: the fields of a command vector. -/
def unpackCmd (n : Nat) (v : BitVec (cmdBits n)) : Cmd := unpackNat n v.toNat

/-- R60 written: the command vector of a command. -/
def packCmd (n : Nat) (c : Cmd) : BitVec (cmdBits n) :=
  BitVec.ofNat (cmdBits n)
    (c.op.toNat + 2 ^ 4 * c.sh.toNat + 2 ^ 68 * val c.a + 2 ^ (68 + 64 * n) * val c.b)

/-- R63 written: `cout` at bit 0, limb `i` of `r` at bits `1 + 64·i + 63` to `1 + 64·i`. -/
def packRsp (n : Nat) (r : Rsp) : BitVec (rspBits n) :=
  BitVec.ofNat (rspBits n) (r.cout.toNat + 2 * val r.r)

/-- R63 read. -/
def unpackRsp (n : Nat) (v : BitVec (rspBits n)) : Rsp where
  r := limbsN (2 * n) (slice v.toNat (2 * (64 * n)) 1)
  cout := slice v.toNat 0 0 == 1

/-- R61: the operation code of each operation. -/
def Mnemonic.code : Mnemonic → BitVec 4
  | .mulfull => 0x0
  | .add => 0x1
  | .sub => 0x2
  | .not => 0x3
  | .and => 0x4
  | .or => 0x5
  | .xor => 0x6
  | .clz => 0x7
  | .shl => 0x8
  | .lsr => 0x9
  | .mul => 0xA
  | .mulx => 0xB

/-- R61, R64: the operation an `op` field selects; a reserved code selects none. -/
def Mnemonic.ofCode (op : BitVec 4) : Option Mnemonic :=
  match op.toNat with
  | 0x0 => some .mulfull
  | 0x1 => some .add
  | 0x2 => some .sub
  | 0x3 => some .not
  | 0x4 => some .and
  | 0x5 => some .or
  | 0x6 => some .xor
  | 0x7 => some .clz
  | 0x8 => some .shl
  | 0x9 => some .lsr
  | 0xA => some .mul
  | 0xB => some .mulx
  | _ => none

/-- The instruction of an operation and an operand record. -/
def Instr.ofMnemonic (m : Mnemonic) (o : Operands) : Instr :=
  match m with
  | .mulfull => .mulfull o
  | .add => .add o
  | .sub => .sub o
  | .not => .not o
  | .and => .and o
  | .or => .or o
  | .xor => .xor o
  | .clz => .clz o
  | .shl => .shl o
  | .lsr => .lsr o
  | .mul => .mul o
  | .mulx => .mulx o

/-- A part of a command that an operation may read (R62). -/
inductive Field
  | a | b | sh | a0 | b0
  deriving DecidableEq, Repr

/-- R62, column "reads". -/
def Mnemonic.reads : Mnemonic → List Field
  | .mulfull => [.a0, .b0]
  | .add => [.a, .b]
  | .sub => [.a, .b]
  | .not => [.a]
  | .and => [.a, .b]
  | .or => [.a, .b]
  | .xor => [.a, .b]
  | .clz => [.a]
  | .shl => [.a, .sh]
  | .lsr => [.a, .sh]
  | .mul => [.a, .b]
  | .mulx => [.a, .b]

/-- Two operand records hold the same value in a field. -/
def Field.same (f : Field) (o p : Operands) : Bool :=
  match f with
  | .a => o.a == p.a
  | .b => o.b == p.b
  | .sh => o.sh == p.sh
  | .a0 => limb o.a 0 == limb p.a 0
  | .b0 => limb o.b 0 == limb p.b 0

/-- R61: "Decoding looks at `cmd.op` and at nothing else". -/
def decodeCmd (c : Cmd) : Except Reject Instr :=
  match Mnemonic.ofCode c.op with
  | some m => .ok (Instr.ofMnemonic m c.operands)
  | none => .error (.reservedOp c.op)

/-- The instruction a command vector holds. -/
def decode (n : Nat) (v : BitVec (cmdBits n)) : Except Reject Instr := decodeCmd (unpackCmd n v)

/-- The command record of an instruction. -/
def encodeCmd (i : Instr) : Cmd :=
  ⟨i.mnemonic.code, i.operands.a, i.operands.b, i.operands.sh⟩

/-- The command vector of an instruction. -/
def encode (n : Nat) (i : Instr) : BitVec (cmdBits n) := packCmd n (encodeCmd i)

/-- The command of `n` limbs whose vector has the low `nbits` bits of `w`, its other bits zero; bits
above the vector's length are no bits of the command (log entry 13). -/
def tableCmd (n nbits w : Nat) : Cmd := unpackNat n (w % 2 ^ nbits)

/-- The instruction the decoder of a block with the `N` of `State.reset` reads from a table word. -/
def decodeTableWord (nbits w : Nat) : Option Instr :=
  match decodeCmd (tableCmd Config.atReset.limbs nbits w) with
  | .ok i => some i
  | .error _ => none

end Sys2Proof
end

