-- ==== Sys2Proof/Machine/State.lean ====
section
/-! DEFINITION. The machine's state. The block keeps no architectural state (10_state.md R20): no register,
no program counter, no flags register, no memory. What is left is its parameters and the values in
transit (00_scope.md R17): the commands issued and not yet answered, and the responses delivered. -/

namespace Sys2Proof.Machine

/-- The reasons the machine stops with a fault. There is none: "The block raises no exception"
(60_exceptions.md R220), "its result type has no fault constructor". -/
inductive Fault
  deriving DecidableEq, Repr

/-- The reasons the machine gives an instruction no meaning. -/
inductive Refusal
  /-- Raised by an arm of `exec` whose instruction has no meaning yet; no arm raises it. Safe. -/
  | notModelled (mnemonic : String)
  /-- Raised by every step and reset of a state that has a command pending whose `op` is one of 0xC to 0xF,
  and by the event that issues one (30_encoding.md R64; 60_exceptions.md R227: "a model
  refuses it at its decoder"), log entry 8. Safe. -/
  | reservedOp (op : BitVec 4)
  /-- Raised by every meaning when an operand does not have exactly `N` limbs, and where `reservedOp` is for
  a command with such an operand: no command of this block (70_reset_and_hazards.md R252), log entry 7.
  Safe. -/
  | limbCount
  deriving DecidableEq, Repr

/-- The parameters of the block (log entry 2), the commands the host has issued and the block has not
answered, oldest first, and the responses delivered, oldest first (log entry 1). -/
structure State where
  cfg : Config
  pending : List Cmd
  responses : List Rsp
  deriving DecidableEq, Repr

/-- R34, R250: the block right after reset, for any parameters: nothing pending, nothing delivered. -/
def State.resetFor (cfg : Config) : State := ⟨cfg, [], []⟩

/-- R34, R250: the block right after reset, for the parameters of log entry 3. -/
def State.reset : State := State.resetFor Config.atReset

end Sys2Proof.Machine
end

