-- ==== Sys2Proof/Machine/Ops.lean ====
section
/-! DEFINITION. The shared operations: taking a command, delivering a response, the placement of a result
in `rsp.r` (10_state.md R27), and what the host may do (70_reset_and_hazards.md R258). The block takes
no exception and returns from none (60_exceptions.md R220, R224, R225), so there is no such operation. -/

namespace Sys2Proof.Machine

/-- R27: a result of at most `2n` limbs in `rsp.r`, zero in the limbs above it. -/
def extend (n : Nat) (xs : Value) : Value := xs ++ List.replicate (2 * n - xs.length) 0#64

/-- R27: `r_lo`, the limbs `r[0]` to `r[n-1]`. -/
def rLo (n : Nat) (r : Rsp) : Value := r.r.take n

/-- R27: `r_hi`, the limbs `r[n]` to `r[2n-1]`. -/
def rHi (n : Nat) (r : Rsp) : Value := r.r.drop n

/-- A response is delivered after those of the earlier commands (20_memory.md R48). -/
def State.deliver (s : State) (r : Rsp) : State := { s with responses := s.responses ++ [r] }

/-- The one way an instruction answers: the result, placed in `rsp.r`, and the flag are delivered and
nothing else happens (R27, 20_memory.md R46). An operand record that is not of this block's `N` is
refused (log entry 7). -/
def answer (s : State) (o : Operands) (result : Value) (cout : Bool) :
    Host.Outcome State Fault Refusal :=
  if o.wf s.cfg.limbs then .next (s.deliver ⟨extend s.cfg.limbs result, cout⟩)
  else .refused .limbCount

/-- The oldest pending command and the state without it (R48: in the order of the commands; R46: a
command is taken whole). -/
def State.take (s : State) : Option (Cmd × State) :=
  match s.pending with
  | [] => none
  | c :: rest => some (c, { s with pending := rest })

/-- The machine's name for what the decoder refuses. -/
def rejectRefusal : Reject → Refusal
  | .reservedOp op => .reservedOp op

/-- What the machine does with a command the decoder refuses (30_encoding.md R64). -/
def refuse (e : Reject) : Host.Outcome State Fault Refusal := .refused (rejectRefusal e)

/-- Why a block of `n` limbs refuses a command, if it does: a reserved `op` (R64), or operands of another
limb count (log entry 7). -/
def cmdRefusal (n : Nat) (c : Cmd) : Option Refusal :=
  match decodeCmd c with
  | .error e => some (rejectRefusal e)
  | .ok _ => if c.wf n then none else some .limbCount

/-- Why a block refuses what is pending, if it does: the refusal of the oldest refused command. -/
def State.pendingRefusal (s : State) : Option Refusal :=
  s.pending.findSome? (cmdRefusal s.cfg.limbs)

/-- R64: "a run that contains one is outside every claim": while a refused command is pending, wherever it
stands, nothing of the run goes on (log entry 8). -/
def guardPending (s : State) (k : Host.Outcome State Fault Refusal) :
    Host.Outcome State Fault Refusal :=
  match s.pendingRefusal with
  | some e => .refused e
  | none => k

/-- What a block with no pending command does: nothing (log entry 5). -/
def idle (s : State) : Host.Outcome State Fault Refusal := .next s

/-- The host issues a command, after those already issued (R258). -/
def State.issue (s : State) (c : Cmd) : State := { s with pending := s.pending ++ [c] }

/-- The host issues a command as an event of a run: one the block refuses ends the run there (R64;
60_exceptions.md R227: "at its decoder, before the machine"; log entry 8). -/
def State.tryIssue (s : State) (c : Cmd) : Host.Outcome State Fault Refusal :=
  guardPending (s.issue c) (.next (s.issue c))

/-- A command as the only one pending, so that the next step takes it (log entry 6). -/
def State.issueOnly (s : State) (c : Cmd) : State := { s with pending := [c] }

/-- R250: the commands not yet answered are dropped; a response already delivered stays delivered; `N` and
`CAP` are not affected. -/
def State.dropPending (s : State) : State := { s with pending := [] }

/-- R250: reset. It does not bring a run that contains a refused command back (R64, log entry 8). -/
def State.applyReset (s : State) : Host.Outcome State Fault Refusal :=
  guardPending s (.next s.dropPending)

/-- R258: a run has ended when no command of it is left to answer. R258 speaks of the response to the last
command only; that a run whose last commands a reset dropped has ended too is the model's choice (DESIGN
CHOICE, log entry 20). -/
def State.runEnded (s : State) : Bool := s.pending.isEmpty

/-- The same state of a block built with another Capability Flag (00_scope.md R8). -/
def State.withCap (s : State) (cap : Cap) : State := { s with cfg := { s.cfg with cap := cap } }

end Sys2Proof.Machine
end

