-- ==== Sys2Proof/Machine/Operands.lean ====
section
/-! DEFINITION. How an operation reads its operands (30_encoding.md R66): whole multi-limb fields are
used as they stand, so they need no reader; here are the operand limbs of MULFULL and the shift
amount with its decomposition (44_shift.md R170, R173). -/

namespace Sys2Proof.Machine

/-- R66: `x = cmd.a[0]`, the least significant limb of the first operand. -/
def operandX (o : Operands) : Limb := limb o.a 0

/-- R66: `y = cmd.b[0]`. -/
def operandY (o : Operands) : Limb := limb o.b 0

/-- R66, R170: the shift amount as it stands, never masked and never reduced. -/
def amount (o : Operands) : Nat := o.sh.toNat

/-- R173: the whole-limb count `w = s div 64`. -/
def wholeLimbs (s : Nat) : Nat := s / 64

/-- R173: the intra-limb remainder `t = s mod 64`. -/
def limbRemainder (s : Nat) : Nat := s % 64

end Sys2Proof.Machine
end

