-- ==== Sys2Proof/Machine/Flags.lean ====
section
/-! DEFINITION. The only flag, `rsp.cout` (10_state.md R27, R30): the carry of one limb's addition
(41_addsub.md R111), the borrow of one limb's subtraction (R115), and the constant 0 every other
operation writes. -/

namespace Sys2Proof.Machine

/-- R27: every operation but ADD and SUB writes 0. -/
def noFlag : Bool := false

/-- R111: `s = zext_65(a[i]) + zext_65(b[i]) + c`. -/
def sum65 (a b : Limb) (c : Bool) : BitVec 65 :=
  a.zeroExtend 65 + b.zeroExtend 65 + (BitVec.ofBool c).zeroExtend 65

/-- R111: the carry into the next limb, `s[64]`. -/
def carryBit (s : BitVec 65) : Bool := s.getLsbD 64

/-- R115: `d = a[i] - b[i] - bw`, an exact integer. -/
def difference (a b : Limb) (bw : Bool) : Int := a.toNat - b.toNat - bw.toNat

/-- R115: the borrow into the next limb, `1 if d < 0 else 0`. -/
def borrowBit (d : Int) : Bool := decide (d < 0)

end Sys2Proof.Machine
end

