-- ==== Sys2Proof/Machine/AddSub.lean ====
section
/-! DEFINITION. Units U2 and U3, the adder and the subtractor (41_addsub.md R110 to R116). -/

namespace Sys2Proof.Machine

/-- R111: the adder's limb chain from a carry in, limb 0 first: the sum limbs and the carry out. -/
def addChain : Bool → Value → Value → Value × Bool
  | c, a :: as, b :: bs =>
    let s := sum65 a b c
    let rest := addChain (carryBit s) as bs
    (s.extractLsb' 0 64 :: rest.1, rest.2)
  | c, _, _ => ([], c)

/-- R115: the subtractor's borrow chain, the reference form. -/
def subChain : Bool → Value → Value → Value × Bool
  | bw, a :: as, b :: bs =>
    let d := difference a b bw
    let rest := subChain (borrowBit d) as bs
    (BitVec.ofInt 64 d :: rest.1, rest.2)
  | bw, _, _ => ([], bw)

/-- R110: ADD. The carry into limb 0 is 0 (R111). -/
def execAdd (o : Operands) (s : State) : Host.Outcome State Fault Refusal :=
  let p := addChain false o.a o.b
  answer s o p.1 p.2

/-- R114: SUB, `cmd.a` minus `cmd.b`; `cout` is the borrow. -/
def execSub (o : Operands) (s : State) : Host.Outcome State Fault Refusal :=
  let p := subChain false o.a o.b
  answer s o p.1 p.2

end Sys2Proof.Machine
end

