-- ==== Sys2Proof/Machine/Bitwise.lean ====
section
/-! DEFINITION. Unit U4, the bitwise operations, limb by limb (42_bitwise.md R130 to R134). The result
has `N` limbs: the complement is not taken over the upper half of `rsp.r` (R130). -/

namespace Sys2Proof.Machine

/-- R130: NOT. -/
def execNot (o : Operands) (s : State) : Host.Outcome State Fault Refusal :=
  answer s o (o.a.map (fun x => ~~~x)) noFlag

/-- R131: AND. -/
def execAnd (o : Operands) (s : State) : Host.Outcome State Fault Refusal :=
  answer s o (List.zipWith (fun x y => x &&& y) o.a o.b) noFlag

/-- R132: OR. -/
def execOr (o : Operands) (s : State) : Host.Outcome State Fault Refusal :=
  answer s o (List.zipWith (fun x y => x ||| y) o.a o.b) noFlag

/-- R133: XOR. -/
def execXor (o : Operands) (s : State) : Host.Outcome State Fault Refusal :=
  answer s o (List.zipWith (fun x y => x ^^^ y) o.a o.b) noFlag

end Sys2Proof.Machine
end

