-- ==== Sys2Proof/Machine/Clz.lean ====
section
/-! DEFINITION. Unit U5, the leading-zero count (43_clz.md R150 to R155). -/

namespace Sys2Proof.Machine

/-- R150: 64 for zero, else `63 - m` with `m` the position of the highest set bit. -/
def clz64 (x : Limb) : Nat := if x = 0 then 64 else 63 - Nat.log2 x.toNat

/-- R154: the scan, over the limbs from the most significant one; `k` is the scan index. -/
def clzScan (k : Nat) : Value → Nat
  | [] => 64 * k
  | x :: xs => if x ≠ 0 then 64 * k + clz64 x else clzScan (k + 1) xs

/-- R153, R154: the leading zeros of a multi-limb value. -/
def clz (a : Value) : Nat := clzScan 0 a.reverse

/-- R155: CLZ: the count in `r[0]`, other limbs zero. -/
def execClz (o : Operands) (s : State) : Host.Outcome State Fault Refusal :=
  answer s o [BitVec.ofNat 64 (clz o.a)] noFlag

end Sys2Proof.Machine
end

