-- ==== Sys2Proof/Machine/MulFull.lean ====
section
/-! DEFINITION. Unit U1, the 64×64→128 multiplier, in its two builds, and the operation MULFULL
(40_mulfull.md R90 to R97). -/

namespace Sys2Proof.Machine

/-- R93: the native build, one 128-bit product split at bit 64. -/
def mulFullNative (x y : Limb) : Limb × Limb :=
  let p : BitVec 128 := x.zeroExtend 128 * y.zeroExtend 128
  (p.extractLsb' 0 64, p.extractLsb' 64 64)

/-- Every value of the generic build's sequence (R94), as the exact integer it is. -/
structure GenericSteps where
  t0 : Nat
  t1 : Nat
  t2 : Nat
  t3 : Nat
  u1 : Nat
  u2 : Nat
  lo : Nat
  hi : Nat
  deriving DecidableEq, Repr

/-- R94: the sequence of the generic build, from four products of 32-bit halves. -/
def genericSteps (x y : Limb) : GenericSteps :=
  let xl := slice x.toNat 31 0
  let xh := slice x.toNat 63 32
  let yl := slice y.toNat 31 0
  let yh := slice y.toNat 63 32
  let t0 := xl * yl
  let t1 := xh * yl
  let t2 := xl * yh
  let t3 := xh * yh
  let u1 := t1 + t0 / 2 ^ 32
  let u2 := t2 + u1 % 2 ^ 32
  { t0, t1, t2, t3, u1, u2
    lo := u2 % 2 ^ 32 * 2 ^ 32 + t0 % 2 ^ 32
    hi := t3 + u2 / 2 ^ 32 + u1 / 2 ^ 32 }

/-- R94: the generic build. Its sums are below `2^64` (R95), so a limb holds each. -/
def mulFullGeneric (x y : Limb) : Limb × Limb :=
  let g := genericSteps x y
  (BitVec.ofNat 64 g.lo, BitVec.ofNat 64 g.hi)

/-- R92: `mul_full` is whichever build `CAP` chose. The pair is `(lo, hi)`. -/
def mulFull (cap : Cap) (x y : Limb) : Limb × Limb :=
  match cap with
  | .native => mulFullNative x y
  | .generic => mulFullGeneric x y

/-- R91: MULFULL: `r[0] = lo`, `r[1] = hi`, other limbs zero, `cout = 0`. -/
def execMulfull (o : Operands) (s : State) : Host.Outcome State Fault Refusal :=
  let p := mulFull s.cfg.cap (operandX o) (operandY o)
  answer s o [p.1, p.2] noFlag

end Sys2Proof.Machine
end

