-- ==== Sys2Proof/Machine/Mul.lean ====
section
/-! DEFINITION. Unit U7, the multiplication array in the row-by-row reference composition
(45_mul.md R190 to R195). -/

namespace Sys2Proof.Machine

/-- R194, one row: the limbs of `a` against one limb `bj`, added into the window `r[j], r[j+1], ...`
of the working result with a carry limb; after the last limb of `a` the carry is written to
`r[j+N]`, and the limbs above it stay. -/
def mulRow (cap : Cap) (bj : Limb) : Value → Limb → Value → Value
  | ai :: as, c, w :: ws =>
    let p := mulFull cap ai bj
    let t := w.toNat + p.1.toNat + c.toNat
    BitVec.ofNat 64 t :: mulRow cap bj as (BitVec.ofNat 64 (p.2.toNat + t / 2 ^ 64)) ws
  | [], c, _ :: ws => c :: ws
  | _, _, [] => []

/-- R194, all rows: row `j` works on the window that begins at limb `j`; the limb the window leaves
behind is final. -/
def mulRows (cap : Cap) (a : Value) : Value → Value → Value
  | [], ws => ws
  | bj :: bs, ws =>
    match mulRow cap bj a 0#64 ws with
    | [] => []
    | w :: ws' => w :: mulRows cap a bs ws'

/-- R194: the full product of two `n`-limb values, `2n` limbs, from a working result of zeros. -/
def fullProduct (cap : Cap) (n : Nat) (a b : Value) : Value :=
  mulRows cap a b (List.replicate (2 * n) 0#64)

/-- R190, R195: MUL delivers the low `N` limbs of the product. -/
def execMul (o : Operands) (s : State) : Host.Outcome State Fault Refusal :=
  answer s o ((fullProduct s.cfg.cap s.cfg.limbs o.a o.b).take s.cfg.limbs) noFlag

/-- R191: MULX delivers all `2N` limbs. -/
def execMulx (o : Operands) (s : State) : Host.Outcome State Fault Refusal :=
  answer s o (fullProduct s.cfg.cap s.cfg.limbs o.a o.b) noFlag

end Sys2Proof.Machine
end

