-- ==== Sys2Proof/Machine/Shift.lean ====
section
/-! DEFINITION. Unit U6, the barrel shifter (44_shift.md R170 to R179). -/

namespace Sys2Proof.Machine

/-- R174: limb `i` of a left shift by `w` limbs and `t` bits. The neighbour term is there only for
`t ≠ 0` (R179) and a limb below. -/
def shlLimb (a : Value) (w t i : Nat) : Limb :=
  if i < w then 0#64
  else if t ≠ 0 ∧ w + 1 ≤ i then
    shl64 (limb a (i - w)) t ||| shr64 (limb a (i - w - 1)) (64 - t)
  else shl64 (limb a (i - w)) t

/-- R174: SHL of an `n`-limb value by limbs. -/
def shlLimbs (n : Nat) (a : Value) (s : Nat) : Value :=
  if 64 * n ≤ s then List.replicate n 0#64
  else (List.range n).map (shlLimb a (wholeLimbs s) (limbRemainder s))

/-- R175: limb `i` of a right shift of an `n`-limb value by `w` limbs and `t` bits. -/
def lsrLimb (n : Nat) (a : Value) (w t i : Nat) : Limb :=
  if n ≤ i + w then 0#64
  else if t ≠ 0 ∧ i + w + 1 < n then
    shr64 (limb a (i + w)) t ||| shl64 (limb a (i + w + 1)) (64 - t)
  else shr64 (limb a (i + w)) t

/-- R175: LSR of an `n`-limb value by limbs. -/
def lsrLimbs (n : Nat) (a : Value) (s : Nat) : Value :=
  if 64 * n ≤ s then List.replicate n 0#64
  else (List.range n).map (lsrLimb n a (wholeLimbs s) (limbRemainder s))

/-- R171: SHL. -/
def execShl (o : Operands) (s : State) : Host.Outcome State Fault Refusal :=
  answer s o (shlLimbs s.cfg.limbs o.a (amount o)) noFlag

/-- R172: LSR. -/
def execLsr (o : Operands) (s : State) : Host.Outcome State Fault Refusal :=
  answer s o (lsrLimbs s.cfg.limbs o.a (amount o)) noFlag

end Sys2Proof.Machine
end

