-- ==== Sys2Proof/Machine/Dispatch.lean ====
section
/-! DEFINITION. One arm per constructor of Instr: the case of `exec_N` each operation's rule defines
(00_scope.md R14). -/

namespace Sys2Proof.Machine

def exec (i : Instr) (s : State) : Host.Outcome State Fault Refusal :=
  match i with
  | .mulfull o => Sys2Proof.Machine.execMulfull o s
  | .add o => Sys2Proof.Machine.execAdd o s
  | .sub o => Sys2Proof.Machine.execSub o s
  | .not o => Sys2Proof.Machine.execNot o s
  | .and o => Sys2Proof.Machine.execAnd o s
  | .or o => Sys2Proof.Machine.execOr o s
  | .xor o => Sys2Proof.Machine.execXor o s
  | .clz o => Sys2Proof.Machine.execClz o s
  | .shl o => Sys2Proof.Machine.execShl o s
  | .lsr o => Sys2Proof.Machine.execLsr o s
  | .mul o => Sys2Proof.Machine.execMul o s
  | .mulx o => Sys2Proof.Machine.execMulx o s

end Sys2Proof.Machine
end

