-- ==== Sys2Proof/Machine/Step.lean ====
section
/-! DEFINITION. One step of the block (00_scope.md R14): the oldest pending command is taken, decoded and
executed, which delivers its response. -/

namespace Sys2Proof.Machine

/-- R14, R48: one command in, one response out; a state with a reserved code pending is refused
(30_encoding.md R64, log entry 8); with no command pending the block idles (log entry 5). -/
def step (s : State) : Host.Outcome State Fault Refusal :=
  guardPending s <|
    match s.take with
    | none => idle s
    | some (c, s') =>
      match decodeCmd c with
      | .ok i => exec i s'
      | .error e => refuse e

/-- `s` with the command whose vector has the low `nbits` bits of `w`, its other bits zero,
as the only command pending, so that the next step runs it (log entry 6). -/
def State.withFetchWord (s : State) (nbits w : Nat) : State :=
  s.issueOnly (tableCmd s.cfg.limbs nbits w)

end Sys2Proof.Machine
end

