-- ==== Sys2Proof/Machine/Alternatives.lean ====
section
/-! DEFINITION. The other circuits the spec describes and calls equal to the reference ones: the 64-bit
carry and borrow forms (41_addsub.md R112, R115), the two's-complement subtractor (R116), the
bit-halving count of one limb (43_clz.md R151), the truncated rows (45_mul.md R195) and the columns
(R202). No instruction uses them; the statements say that they compute the same. -/

namespace Sys2Proof.Machine

/-- R112: one limb's addition in 64-bit values: the sum limb and the two carries `c1` and `c2`. -/
def addStep64 (a b : Limb) (c : Bool) : Limb × Bool × Bool :=
  let t := a + b
  let u := t + (BitVec.ofBool c).zeroExtend 64
  (u, decide (t < a), decide (u < t))

/-- R112: the adder's chain in 64-bit values, `c = c1 or c2`. -/
def addChain64 : Bool → Value → Value → Value × Bool
  | c, a :: as, b :: bs =>
    let p := addStep64 a b c
    let rest := addChain64 (p.2.1 || p.2.2) as bs
    (p.1 :: rest.1, rest.2)
  | c, _, _ => ([], c)

/-- R115: one limb's subtraction in 64-bit values: the difference limb and the borrows `b1`, `b2`. -/
def subStep64 (a b : Limb) (bw : Bool) : Limb × Bool × Bool :=
  let t := a - b
  let w := (BitVec.ofBool bw).zeroExtend 64
  (t - w, decide (a < b), decide (t < w))

/-- R115: the subtractor's chain in 64-bit values, `bw = b1 or b2`. -/
def subChain64 : Bool → Value → Value → Value × Bool
  | bw, a :: as, b :: bs =>
    let p := subStep64 a b bw
    let rest := subChain64 (p.2.1 || p.2.2) as bs
    (p.1 :: rest.1, rest.2)
  | bw, _, _ => ([], bw)

/-- `nb[i] = not64(b[i])` (R116). -/
def notLimbs (b : Value) : Value := b.map (fun x => ~~~x)

/-- R116: `a - b` as the adder chain on `a` and `NOT b` with carry in 1. -/
def subByComplement (a b : Value) : Value × Bool := addChain true a (notLimbs b)

/-- R116: the same as two passes without a carry in, `a + NOT b` and then `+ 1`: the limbs and the two
carries out. -/
def subByTwoPasses (a b : Value) : Value × Bool × Bool :=
  let p := addChain false a (notLimbs b)
  let q := addChain false p.1 (limbsN p.1.length 1)
  (q.1, p.2, q.2)

/-- R151: one test of the bit-halving search: if the upper `k` bits of the window are zero, count
them and move the window up. -/
def halvingStep (k : Nat) (p : Nat × Limb) : Nat × Limb :=
  if shr64 p.2 (64 - k) = 0 then (p.1 + k, shl64 p.2 k) else p

/-- R151: the bit-halving leading-zero count. -/
def clz64Halving (x : Limb) : Nat :=
  if x = 0 then 64
  else
    let p := halvingStep 2 (halvingStep 4 (halvingStep 8 (halvingStep 16 (halvingStep 32 (0, x)))))
    if shr64 p.2 63 = 0 then p.1 + 1 else p.1

/-- R195: the rows of R194 on a working result of `n` limbs only: row `j` runs for `i = 0 .. n-1-j` and
the last carry of each row is dropped. -/
def truncatedProduct (cap : Cap) (n : Nat) (a b : Value) : Value :=
  mulRows cap a b (List.replicate n 0#64)

/-- R202: the limb pairs of column `k`. -/
def columnPairs (n k : Nat) : List (Nat × Nat) :=
  (List.range n).flatMap fun i =>
    ((List.range n).filter fun j => i + j == k).map fun j => (i, j)

/-- R202: the low halves of column `k` and the high halves of column `k - 1`. -/
def columnSum (cap : Cap) (n : Nat) (a b : Value) (k : Nat) : Nat :=
  ((columnPairs n k).map fun p => (mulFull cap (limb a p.1) (limb b p.2)).1.toNat).sum +
  (if k = 0 then 0
   else ((columnPairs n (k - 1)).map fun p => (mulFull cap (limb a p.1) (limb b p.2)).2.toNat).sum)

/-- R202: the accumulator when column `k` has been added, before its low limb is stored. -/
def columnAcc (cap : Cap) (n : Nat) (a b : Value) : Nat → Nat
  | 0 => columnSum cap n a b 0
  | k + 1 => columnAcc cap n a b k / 2 ^ 64 + columnSum cap n a b (k + 1)

/-- R202: the product column by column, `r[k] = acc mod 2^64`. -/
def columnProduct (cap : Cap) (n : Nat) (a b : Value) : Value :=
  (List.range (2 * n)).map fun k => BitVec.ofNat 64 (columnAcc cap n a b k)

end Sys2Proof.Machine
end

