-- ==== Sys2Proof/Machine/HostPort.lean ====
section
/-! DEFINITION. The block seen from the host (70_reset_and_hazards.md R258): what happens is a list of
events, in any order the host and the block give them; and `exec_N`, the response of one command issued
alone (00_scope.md R14; 20_memory.md R48). -/

namespace Sys2Proof.Machine

/-- R258: the host issues a command or resets the block; the block steps. -/
inductive Event
  | issue (c : Cmd)
  | reset
  | step
  deriving DecidableEq, Repr

/-- The effect of one event. A reserved command is refused when the host issues it, and no event goes on
from a state that has one pending (R64, log entry 8). -/
def applyEvent (e : Event) (s : State) : Host.Outcome State Fault Refusal :=
  match e with
  | .issue c => s.tryIssue c
  | .reset => s.applyReset
  | .step => step s

/-- The effect of a list of events, oldest first, up to the first refusal. A run that contains a reserved
command, at its start or issued on the way, is refused: it is "outside every claim" (R64). -/
def runEvents : List Event → State → Host.Outcome State Fault Refusal
  | [], s => guardPending s (.next s)
  | e :: es, s =>
    match applyEvent e s with
    | .next s' => runEvents es s'
    | .fault r => .fault r
    | .refused r => .refused r

/-- The commands a list of events issues, oldest first. -/
def issuedCommands : List Event → List Cmd
  | [] => []
  | .issue c :: es => c :: issuedCommands es
  | .reset :: es => issuedCommands es
  | .step :: es => issuedCommands es

/-- R14: `exec_N(cmd)`: the response a block just reset gives to the command issued alone, if it gives
one. -/
def execN (cfg : Config) (c : Cmd) : Option Rsp :=
  match step ((State.resetFor cfg).issue c) with
  | .next t => t.responses.head?
  | .fault _ => none
  | .refused _ => none

/-- The `r_lo` of `exec_N(cmd)`: the `N`-limb result a host keeps (10_state.md R27, 30_encoding.md R67). -/
def execLo (cfg : Config) (c : Cmd) : Option Value := (execN cfg c).map (rLo cfg.limbs)

/-- 45_mul.md R197: the sum of `k` additions of `a`, from zero, every `cout` ignored. -/
def repeatAdd (cfg : Config) (a : Value) : Nat → Option Value
  | 0 => some (limbsN cfg.limbs 0)
  | k + 1 => (repeatAdd cfg a k).bind fun acc => execLo cfg ⟨0x1, acc, a, 0⟩

end Sys2Proof.Machine
end

