-- ==== Sys2Proof/Machine/Pseudo.lean ====
section
/-! DEFINITION. The operand literals and pseudo-operations of 30_encoding.md R68: each is an abbreviation
for one command; a decoder never sees them. Fields the expansion ignores are zero. -/

namespace Sys2Proof.Machine

/-- R68: `ZERO`. -/
def valueZero (n : Nat) : Value := limbsN n 0

/-- R68: `ONE`. -/
def valueOne (n : Nat) : Value := limbsN n 1

/-- R68: `MAX`, all `W` bits set. -/
def valueMax (n : Nat) : Value := limbsN n (2 ^ (64 * n) - 1)

/-- R68: `d = NEG b` is `SUB 0, b`. -/
def pseudoNeg (n : Nat) (b : Value) : Instr := .sub ⟨valueZero n, b, 0⟩

/-- R68, 45_mul.md R198: `d = MULK a, k` is `MUL a, limbs_N(k)`, `k` a small integer. That a `k` of `2^W` or
more, which no rule gives a value, multiplies by `k mod 2^W` is the model's choice (log entry 19). -/
def pseudoMulk (n : Nat) (a : Value) (k : Nat) : Instr := .mul ⟨a, limbsN n k, 0⟩

/-- R68: `d = MOV a` is `OR a, 0`. -/
def pseudoMov (n : Nat) (a : Value) : Instr := .or ⟨a, valueZero n, 0⟩

end Sys2Proof.Machine
end

