-- ==== Sys2Proof/Machine/Reference.lean ====
section
/-! DEFINITION. The arbitrary-precision reference: "the contracts ..., stated in unbounded integers, are that
reference in this spec" (41_addsub.md R120, 45_mul.md R200; 00_scope.md R18). It is no part of the block
and no meaning uses it: a statement says that every instruction agrees with it on all operands, which
takes in the full cross-product of any boundary set. -/

namespace Sys2Proof.Machine

/-- R110: the sum modulo `2^w` and the carry out, `(a + b) div 2^w`. -/
def referenceAdd (w a b : Nat) : Nat × Bool := ((a + b) % 2 ^ w, (a + b) / 2 ^ w == 1)

/-- R114: the integer difference modulo `2^w` and the borrow out. -/
def referenceSub (w a b : Nat) : Nat × Bool := (((a : Int) - b) % 2 ^ w |>.toNat, decide (a < b))

/-- R153: the zero bits above the highest set bit of a number of `w` bits. -/
def referenceClz (w a : Nat) : Nat := if a = 0 then w else w - 1 - Nat.log2 a

/-- R171: the left shift. -/
def referenceShl (w a s : Nat) : Nat := if s < w then a * 2 ^ s % 2 ^ w else 0

/-- R172: the right shift. -/
def referenceLsr (w a s : Nat) : Nat := if s < w then a / 2 ^ s else 0

/-- R190: the product modulo `2^w`. -/
def referenceMul (w a b : Nat) : Nat := a * b % 2 ^ w

/-- R91, R191: the exact product. -/
def referenceMulx (a b : Nat) : Nat := a * b

/-- The number `rsp.r` stands for and `rsp.cout`, by the contract of each operation, for a value width
of `w` bits. -/
def reference (w : Nat) : Instr → Nat × Bool
  | .mulfull o => (referenceMulx (operandX o).toNat (operandY o).toNat, false)
  | .add o => referenceAdd w (val o.a) (val o.b)
  | .sub o => referenceSub w (val o.a) (val o.b)
  | .not o => (2 ^ w - 1 - val o.a, false)
  | .and o => (val o.a &&& val o.b, false)
  | .or o => (val o.a ||| val o.b, false)
  | .xor o => (val o.a ^^^ val o.b, false)
  | .clz o => (referenceClz w (val o.a), false)
  | .shl o => (referenceShl w (val o.a) (amount o), false)
  | .lsr o => (referenceLsr w (val o.a) (amount o), false)
  | .mul o => (referenceMul w (val o.a) (val o.b), false)
  | .mulx o => (referenceMulx (val o.a) (val o.b), false)

end Sys2Proof.Machine
end

