-- ==== Sys2Proof/Machine/Transcript.lean ====
section
/-! DEFINITION. The transcript notation of 30_encoding.md R67, read as what the host does: one command a
line, whose operands are literals or names of values the host keeps from earlier responses. Names are the
host's and are no state of the block (10_state.md R28), so they stand in `HostNames`, not in `State`. -/

namespace Sys2Proof.Machine

/-- R67: an operand as it is written (log entry 17). -/
inductive Arg
  /-- A value written as one number. -/
  | number (v : Nat)
  /-- A list of limbs, least significant first. -/
  | limbs (ls : Value)
  /-- A name of a value. -/
  | name (x : String)
  /-- "the transcript says which limbs are taken": `len` limbs of a value from limb `start`. -/
  | part (x : String) (start len : Nat)
  deriving DecidableEq, Repr

/-- R67: one line, `<dst>[, <flag>] = <MNEMONIC> <operand>[, <operand>]`. -/
structure Line where
  dst : String
  flag : Option String
  op : Mnemonic
  first : Arg
  second : Option Arg
  deriving DecidableEq, Repr

/-- The host's names, newest first. -/
structure HostNames where
  values : List (String × Value)
  flags : List (String × Bool)
  deriving DecidableEq, Repr

/-- The `n`-limb value an operand stands for, if it is one. -/
def Arg.value (n : Nat) (h : HostNames) : Arg → Option Value
  | .number v => if v < 2 ^ (64 * n) then some (limbsN n v) else none
  | .limbs ls => if ls.length = n then some ls else none
  | .name x => (h.values.lookup x).filter fun v => v.length == n
  | .part x start len =>
    (h.values.lookup x).bind fun v =>
      let p := (v.drop start).take len
      if p.length ≤ n then some (p ++ List.replicate (n - p.length) 0) else none

/-- The 64-bit amount an operand stands for, if it is one. -/
def Arg.amount (h : HostNames) : Arg → Option (BitVec 64)
  | .number v => if v < 2 ^ 64 then some (BitVec.ofNat 64 v) else none
  | .limbs ls => if ls.length = 1 then ls.head? else none
  | .name x => ((h.values.lookup x).filter fun v => v.length == 1).bind List.head?
  | .part x start len => if len = 1 then (h.values.lookup x).bind fun v => v[start]? else none

/-- R67: the operand record of a line: `cmd.a`, then `cmd.b` or `cmd.sh` as R62 lists for the operation;
a field the operation does not read is zero, one choice among all. R67 gives NOT and CLZ one operand and no
meaning to a line that writes a second: such a line is read without it (DESIGN CHOICE, log entry 17). -/
def Line.operands (n : Nat) (h : HostNames) (l : Line) : Option Operands :=
  (l.first.value n h).bind fun a =>
    if Field.sh ∈ l.op.reads then
      (l.second.bind (Arg.amount h)).map fun s => ⟨a, limbsN n 0, s⟩
    else if Field.b ∈ l.op.reads ∨ Field.b0 ∈ l.op.reads then
      (l.second.bind (Arg.value n h)).map fun b => ⟨a, b, 0⟩
    else some ⟨a, limbsN n 0, 0⟩

/-- R67: the value `<dst>` names. -/
def dstValue (n : Nat) (m : Mnemonic) (r : Rsp) : Value :=
  match m with
  | .mulx => r.r
  | .mulfull => r.r.take 2
  | .clz => r.r.take 1
  | .add | .sub | .not | .and | .or | .xor | .shl | .lsr | .mul => rLo n r

/-- One line: its command is issued and its response named. -/
def runLine (cfg : Config) (h : HostNames) (l : Line) : Option HostNames :=
  (l.operands cfg.limbs h).bind fun o =>
    (execN cfg (encodeCmd (Instr.ofMnemonic l.op o))).map fun r =>
      { values := (l.dst, dstValue cfg.limbs l.op r) :: h.values
        flags := (l.flag.toList.map fun f => (f, r.cout)) ++ h.flags }

/-- A transcript, line by line. -/
def runTranscript (cfg : Config) : HostNames → List Line → Option HostNames
  | h, [] => some h
  | h, l :: ls => (runLine cfg h l).bind fun h' => runTranscript cfg h' ls

end Sys2Proof.Machine
end

