-- ==== Sys2Proof/Safety.lean ====
section
/-! DEFINITION. What counts as a safe run: the host keeps its side (70_reset_and_hazards.md R258) and the
block answers every command. -/

namespace Sys2Proof.Machine

/-- R258: what the host must do: keep `op` out of the reserved codes (30_encoding.md R64) and use the
block's `N` (R252). -/
def acceptable (n : Nat) (c : Cmd) : Bool := c.wf n && (Mnemonic.ofCode c.op).isSome

/-- The records in transit have the block's formats: every pending command has `N` limbs in each
multi-limb operand (10_state.md R26) and every delivered response `2N` limbs (R27). -/
def State.inv (s : State) : Bool :=
  s.pending.all (Cmd.wf s.cfg.limbs) && s.responses.all (Rsp.wf s.cfg.limbs)

/-- A run of `k` steps from `s` is safe when the block refuses nothing on the way. -/
def SafeRun (k : Nat) (s : State) : Prop := ∃ t, Host.Core.run Sys2Proof.core k s = .next t

/-- Two operand records agree on every field the operation reads (30_encoding.md R62, R65). -/
def agreeOnReads (m : Mnemonic) (o p : Operands) : Bool := m.reads.all fun f => f.same o p

end Sys2Proof.Machine
end

