-- ==== Sys2Proof/Certificates/Slice0/Obligations.lean ====
section
/-! DEFINITION. The statements about the model. In each, `N` is `limbs` of the configuration, so every
statement holds for every instance of the block; `W = 64·N`. A response record is written
`⟨limbsN (2 * N) v, c⟩` where the rule gives the number `v` that `rsp.r` stands for (00_scope.md R12). -/

open Sys2Proof Sys2Proof.Machine

/-! ### Results: what each operation answers, at every state and on every operand of the block -/

/-- R91: MULFULL, code 0x0, delivers the exact product of limbs 0 of `a` and `b`, `cout = 0`, and changes
nothing else. -/
def Obligations.MulfullDeliversExactProduct : Prop :=
  ∀ (o : Operands) (s : State), o.wf s.cfg.limbs = true →
    (encodeCmd (.mulfull o)).op = 0x0 ∧
    exec (.mulfull o) s = .next { s with responses := s.responses ++
      [⟨limbsN (2 * s.cfg.limbs) ((limb o.a 0).toNat * (limb o.b 0).toNat), false⟩] }

/-- R110: ADD, code 0x1, delivers the sum modulo `2^W` and the carry out. -/
def Obligations.AddDeliversSumAndCarry : Prop :=
  ∀ (o : Operands) (s : State), o.wf s.cfg.limbs = true →
    (encodeCmd (.add o)).op = 0x1 ∧
    exec (.add o) s = .next { s with responses := s.responses ++
      [⟨limbsN (2 * s.cfg.limbs) ((val o.a + val o.b) % 2 ^ s.cfg.width),
        decide (2 ^ s.cfg.width ≤ val o.a + val o.b)⟩] }

/-- R114: SUB, code 0x2, delivers the difference modulo `2^W` and the borrow out. -/
def Obligations.SubDeliversDifferenceAndBorrow : Prop :=
  ∀ (o : Operands) (s : State), o.wf s.cfg.limbs = true →
    (encodeCmd (.sub o)).op = 0x2 ∧
    exec (.sub o) s = .next { s with responses := s.responses ++
      [⟨limbsN (2 * s.cfg.limbs) (((val o.a : Int) - val o.b) % 2 ^ s.cfg.width).toNat,
        decide (val o.a < val o.b)⟩] }

/-- R130: NOT, code 0x3, delivers the complement over `W` bits. -/
def Obligations.NotDeliversComplement : Prop :=
  ∀ (o : Operands) (s : State), o.wf s.cfg.limbs = true →
    (encodeCmd (.not o)).op = 0x3 ∧
    exec (.not o) s = .next { s with responses := s.responses ++
      [⟨limbsN (2 * s.cfg.limbs) (2 ^ s.cfg.width - 1 - val o.a), false⟩] }

/-- R131: AND, code 0x4: bit `k` of the result is set iff it is set in both operands. -/
def Obligations.AndDeliversConjunction : Prop :=
  ∀ (o : Operands) (s : State), o.wf s.cfg.limbs = true →
    (encodeCmd (.and o)).op = 0x4 ∧
    exec (.and o) s = .next { s with responses := s.responses ++
      [⟨limbsN (2 * s.cfg.limbs) (val o.a &&& val o.b), false⟩] }

/-- R132: OR, code 0x5: bit `k` of the result is set iff it is set in either operand. -/
def Obligations.OrDeliversDisjunction : Prop :=
  ∀ (o : Operands) (s : State), o.wf s.cfg.limbs = true →
    (encodeCmd (.or o)).op = 0x5 ∧
    exec (.or o) s = .next { s with responses := s.responses ++
      [⟨limbsN (2 * s.cfg.limbs) (val o.a ||| val o.b), false⟩] }

/-- R133: XOR, code 0x6: bit `k` of the result is set iff it is set in exactly one operand. -/
def Obligations.XorDeliversExclusiveOr : Prop :=
  ∀ (o : Operands) (s : State), o.wf s.cfg.limbs = true →
    (encodeCmd (.xor o)).op = 0x6 ∧
    exec (.xor o) s = .next { s with responses := s.responses ++
      [⟨limbsN (2 * s.cfg.limbs) (val o.a ^^^ val o.b), false⟩] }

/-- R155 with R153: CLZ, code 0x7, delivers `W` for zero and `W - 1 - m` for a value whose highest set
bit is bit `m`. -/
def Obligations.ClzDeliversLeadingZeroCount : Prop :=
  ∀ (o : Operands) (s : State), o.wf s.cfg.limbs = true →
    (encodeCmd (.clz o)).op = 0x7 ∧
    (val o.a = 0 → exec (.clz o) s = .next { s with responses := s.responses ++
      [⟨limbsN (2 * s.cfg.limbs) s.cfg.width, false⟩] }) ∧
    (∀ m, 2 ^ m ≤ val o.a → val o.a < 2 ^ (m + 1) →
      exec (.clz o) s = .next { s with responses := s.responses ++
        [⟨limbsN (2 * s.cfg.limbs) (s.cfg.width - 1 - m), false⟩] })

/-- R171: SHL, code 0x8, delivers `(a·2^sh) mod 2^W` for `sh < W` and zero for every larger amount. -/
def Obligations.ShlDeliversShiftedValue : Prop :=
  ∀ (o : Operands) (s : State), o.wf s.cfg.limbs = true →
    (encodeCmd (.shl o)).op = 0x8 ∧
    exec (.shl o) s = .next { s with responses := s.responses ++
      [⟨limbsN (2 * s.cfg.limbs) (if o.sh.toNat < s.cfg.width
          then val o.a * 2 ^ o.sh.toNat % 2 ^ s.cfg.width else 0), false⟩] }

/-- R172: LSR, code 0x9, delivers `a div 2^sh` for `sh < W` and zero for every larger amount. -/
def Obligations.LsrDeliversShiftedValue : Prop :=
  ∀ (o : Operands) (s : State), o.wf s.cfg.limbs = true →
    (encodeCmd (.lsr o)).op = 0x9 ∧
    exec (.lsr o) s = .next { s with responses := s.responses ++
      [⟨limbsN (2 * s.cfg.limbs) (if o.sh.toNat < s.cfg.width
          then val o.a / 2 ^ o.sh.toNat else 0), false⟩] }

/-- R190: MUL, code 0xA, delivers the product modulo `2^W`. -/
def Obligations.MulDeliversTruncatedProduct : Prop :=
  ∀ (o : Operands) (s : State), o.wf s.cfg.limbs = true →
    (encodeCmd (.mul o)).op = 0xA ∧
    exec (.mul o) s = .next { s with responses := s.responses ++
      [⟨limbsN (2 * s.cfg.limbs) (val o.a * val o.b % 2 ^ s.cfg.width), false⟩] }

/-- R191: MULX, code 0xB, delivers the exact product over all `2N` limbs. -/
def Obligations.MulxDeliversFullProduct : Prop :=
  ∀ (o : Operands) (s : State), o.wf s.cfg.limbs = true →
    (encodeCmd (.mulx o)).op = 0xB ∧ val o.a * val o.b < 2 ^ (2 * s.cfg.width) ∧
    exec (.mulx o) s = .next { s with responses := s.responses ++
      [⟨limbsN (2 * s.cfg.limbs) (val o.a * val o.b), false⟩] }

/-- R120, R200: on all operands, so on any boundary set, and in both builds, every instruction answers what
the arbitrary-precision reference gives. -/
def Obligations.EveryInstructionAgreesWithTheReference : Prop :=
  ∀ (i : Instr) (s : State), i.wf s.cfg.limbs = true →
    exec i s = .next { s with responses := s.responses ++
      [⟨limbsN (2 * s.cfg.limbs) (reference s.cfg.width i).1, (reference s.cfg.width i).2⟩] } ∧
    (reference s.cfg.width i).1 < 2 ^ (2 * s.cfg.width)

/-! ### Frames -/

/-- R27: whatever an operation answers, the configuration, the pending commands and the responses already
delivered are unchanged and one response of `2N` limbs is added; only ADD and SUB may set `cout`; every
operation but MULFULL and MULX leaves `r_hi` zero, MULFULL every limb from 2 up, CLZ every limb from 1
up. -/
def Obligations.ExecAddsOneResponseOfItsShape : Prop :=
  ∀ (i : Instr) (s t : State), exec i s = .next t →
    t.cfg = s.cfg ∧ t.pending = s.pending ∧
    ∃ r : Rsp, t.responses = s.responses ++ [r] ∧ r.r.length = 2 * s.cfg.limbs ∧
      (i.mnemonic ≠ .add → i.mnemonic ≠ .sub → r.cout = false) ∧
      (i.mnemonic ≠ .mulfull → i.mnemonic ≠ .mulx →
        rHi s.cfg.limbs r = List.replicate s.cfg.limbs 0#64) ∧
      (i.mnemonic = .mulfull → ∀ k, 2 ≤ k → limb r.r k = 0) ∧
      (i.mnemonic = .clz → ∀ k, 1 ≤ k → limb r.r k = 0)

/-- R14, R20, R46, R48: a step with a command pending takes the oldest one, adds one response after those
delivered, and changes nothing else. The other clause, that with no command pending the state is the same,
is the model's choice (DESIGN CHOICE, log entry 5), which the spec does not state. -/
def Obligations.StepTakesOneAndDeliversOne : Prop :=
  ∀ s t : State, step s = .next t →
    t.cfg = s.cfg ∧
    ((s.pending = [] ∧ t = s) ∨
      ∃ c r, s.pending = c :: t.pending ∧ t.responses = s.responses ++ [r])

/-- Log entry 7 (the model's reading of R252): an instruction whose operands do not have `N` limbs is
refused by every arm. -/
def Obligations.OtherLimbCountIsRefused : Prop :=
  ∀ (i : Instr) (s : State), i.wf s.cfg.limbs = false → exec i s = .refused .limbCount

/-! ### Encoding -/

/-- R60: where each field of the command vector stands, limb by limb. -/
def Obligations.CommandVectorFieldPositions : Prop :=
  ∀ (n : Nat) (v : BitVec (cmdBits n)),
    (unpackCmd n v).op = v.extractLsb' 0 4 ∧
    (unpackCmd n v).sh = v.extractLsb' 4 64 ∧
    (unpackCmd n v).wf n = true ∧
    ∀ i, i < n →
      limb (unpackCmd n v).a i = v.extractLsb' (68 + 64 * i) 64 ∧
      limb (unpackCmd n v).b i = v.extractLsb' (68 + 64 * n + 64 * i) 64

/-- R63: where each field of the response vector stands, and reading it back. -/
def Obligations.ResponseVectorRoundTrip : Prop :=
  ∀ (n : Nat) (r : Rsp), r.wf n = true →
    (packRsp n r).getLsbD 0 = r.cout ∧
    (∀ i, i < 2 * n → (packRsp n r).extractLsb' (1 + 64 * i) 64 = limb r.r i) ∧
    unpackRsp n (packRsp n r) = r

/-- R60, R61: decoding the vector of a well-formed instruction gives it back, every limb and the amount
at every value, for every `n`. -/
def Obligations.DecodeOfEncode : Prop :=
  ∀ (n : Nat) (i : Instr), i.wf n = true → decode n (encode n i) = .ok i

/-- R60, R61: a vector the decoder accepts is the vector of the well-formed instruction it gives, so no
two vectors decode to one instruction. -/
def Obligations.EncodeOfDecode : Prop :=
  ∀ (n : Nat) (v : BitVec (cmdBits n)) (i : Instr), decode n v = .ok i →
    i.wf n = true ∧ encode n i = v

/-- R64: the decoder refuses exactly the codes 0xC to 0xF, whatever the other fields hold, so does the
machine when such a command is the oldest, and a run that contains one, pending at its start or issued on
the way, before or after any reset, ends in a refusal. -/
def Obligations.ReservedCodesAreRefused : Prop :=
  (∀ (n : Nat) (v : BitVec (cmdBits n)),
    decode n v = .error (.reservedOp (v.extractLsb' 0 4)) ↔ 0xC ≤ (v.extractLsb' 0 4).toNat) ∧
  (∀ (n : Nat) (v : BitVec (cmdBits n)),
    (∃ i, decode n v = .ok i) ↔ (v.extractLsb' 0 4).toNat < 0xC) ∧
  (∀ (s : State) (c : Cmd) (rest : List Cmd), s.pending = c :: rest → 0xC ≤ c.op.toNat →
    step s = .refused (.reservedOp c.op)) ∧
  (∀ (es : List Event) (s : State) (c : Cmd), c ∈ s.pending ++ issuedCommands es → 0xC ≤ c.op.toNat →
    ∃ e : Refusal, runEvents es s = .refused e)

/-- Command vectors written out from R60 and R61 decode to what they stand for: one of each unit, and the
nearest accepted and refused codes. `b` is the upper half of the digits, then `a`, then the 16 digits of
`sh` and the digit of `op`. -/
def Obligations.WrittenOutWordsDecode : Prop :=
  decodeTableWord 324
    0x0badf00dfeedfacedeadbeefcafebabe0123456789abcdeffedcba987654321000000000000000000 =
    some (.mulfull ⟨[0xfedcba9876543210, 0x0123456789abcdef],
      [0xdeadbeefcafebabe, 0x0badf00dfeedface], 0⟩) ∧
  decodeTableWord 324
    0x1e69aaaba973e8e00000000000000000ddb06310dc4c1a9fa29bb71b4abcc7e000000000000000001 =
    some (.add ⟨[0xa29bb71b4abcc7e0, 0xddb06310dc4c1a9f], [0, 0x1e69aaaba973e8e0], 0⟩) ∧
  decodeTableWord 324
    0x800000000000000000000000000000010000000000000001000000000000000000000000000000002 =
    some (.sub ⟨[0, 1], [1, 0x8000000000000000], 0⟩) ∧
  decodeTableWord 324
    0x800000000000000000000000000000010000000000000001000000000000000200000000000000036 =
    some (.xor ⟨[2, 1], [1, 0x8000000000000000], 3⟩) ∧
  decodeTableWord 324
    0x000000000000000000000000000000000ba0a62b840deae61e69aaaba973e8e000000000000000408 =
    some (.shl ⟨[0x1e69aaaba973e8e0, 0x0ba0a62b840deae6], [0, 0], 64⟩) ∧
  decodeTableWord 324
    0x0badf00dfeedfacedeadbeefcafebabe0123456789abcdeffedcba98765432100000000000000000b =
    some (.mulx ⟨[0xfedcba9876543210, 0x0123456789abcdef],
      [0xdeadbeefcafebabe, 0x0badf00dfeedface], 0⟩) ∧
  decodeTableWord 8 0x7 = some (.clz ⟨[0, 0], [0, 0], 0⟩) ∧
  decodeTableWord 8 0xC = none ∧ decodeTableWord 8 0xFF = none

/-! ### The step -/

/-- A step runs the decoded instruction: with `c` the oldest pending command and `i` what it decodes to,
the step is `exec i` at the state without that command. When a command behind it is one the block refuses
(R64, R252), the step is refused: that it already is refused then is the model's choice (log entry 8). -/
def Obligations.StepRunsTheDecodedInstruction : Prop :=
  ∀ (s : State) (c : Cmd) (rest : List Cmd) (i : Instr),
    s.pending = c :: rest → decodeCmd c = .ok i →
    ((∀ d ∈ rest, acceptable s.cfg.limbs d = true) → step s = exec i { s with pending := rest }) ∧
    (∀ d ∈ rest, acceptable s.cfg.limbs d = false → ∃ e : Refusal, step s = .refused e)

/-- Log entry 6: the command vector `withFetchWord` places is the one the next step runs. -/
def Obligations.StepRunsTheFetchWord : Prop :=
  ∀ (s : State) (nbits w : Nat) (i : Instr),
    decode s.cfg.limbs (BitVec.ofNat (cmdBits s.cfg.limbs) (w % 2 ^ nbits)) = .ok i →
    step (s.withFetchWord nbits w) = exec i { s with pending := [] }

/-- Log entry 5 (the model's reading of R48, R258): with no command pending a step changes nothing. -/
def Obligations.IdleStepChangesNothing : Prop :=
  ∀ s : State, s.pending = [] → step s = .next s

/-- R220, R255: in a run whose pending commands have a non-reserved `op` and operands of this block the
oldest is answered, whatever its operands, and no step ends in a fault. -/
def Obligations.EveryAcceptableCommandIsAnswered : Prop :=
  (∀ (s : State) (c : Cmd) (rest : List Cmd), s.pending = c :: rest →
    (∀ d ∈ s.pending, acceptable s.cfg.limbs d = true) →
    ∃ r : Rsp, step s = .next { s with pending := rest, responses := s.responses ++ [r] }) ∧
  (∀ (s : State) (f : Fault), step s ≠ .fault f)

/-! ### Whole-machine rules -/

/-- R26, R27: every step keeps the formats of the records in transit, from every state that has them. -/
def Obligations.StepKeepsRecordFormats : Prop :=
  ∀ s t : State, s.inv = true → step s = .next t → t.inv = true

/-- R34, R250: right after reset nothing is pending and nothing delivered, and the formats hold. Which
configuration `State.reset` has is the model's choice (DESIGN CHOICE, log entry 3), and so is that the
state has these lists at all (log entry 1). -/
def Obligations.ResetHoldsNothing : Prop :=
  ∀ cfg : Config, (State.resetFor cfg).inv = true ∧ (State.resetFor cfg).pending = [] ∧
    (State.resetFor cfg).responses = [] ∧ (State.resetFor cfg).cfg = cfg ∧
    State.reset = State.resetFor Config.atReset

/-- R250: a reset drops the pending commands and keeps the responses delivered, `N` and `CAP`; the first
command after it is answered with `exec_N(cmd)`. That every command issued and not answered counts as
accepted is the model's choice (DESIGN CHOICE, log entry 9). Where a refused command is pending R64 puts
the run outside every claim: reset is refused, which is the model's choice too (log entry 8). -/
def Obligations.ResetDropsPendingKeepsDelivered : Prop :=
  ∀ s : State,
    ((∀ d ∈ s.pending, acceptable s.cfg.limbs d = true) →
      ∃ t, s.applyReset = .next t ∧ t = { s with pending := [] } ∧
      ∀ c : Cmd, acceptable s.cfg.limbs c = true →
        ∃ r : Rsp, execN s.cfg c = some r ∧
          runEvents [.issue c, .step] t = .next { t with responses := s.responses ++ [r] }) ∧
    (∀ d ∈ s.pending, acceptable s.cfg.limbs d = false → ∃ e : Refusal, s.applyReset = .refused e)

/-- R14: the response is a function of the command and `N` alone: two blocks of the same `N`, whatever is
pending, delivered or built into them, answer an instruction with the same response, or both refuse. -/
def Obligations.ResponseDependsOnCommandAndLimbCountAlone : Prop :=
  ∀ (i : Instr) (s s' : State), s.cfg.limbs = s'.cfg.limbs →
    (∃ r : Rsp, exec i s = .next { s with responses := s.responses ++ [r] } ∧
      exec i s' = .next { s' with responses := s'.responses ++ [r] }) ∨
    (∃ e : Refusal, exec i s = .refused e ∧ exec i s' = .refused e)

/-- R65: a field or limb an operation does not read has no effect. -/
def Obligations.IgnoredFieldsHaveNoEffect : Prop :=
  ∀ (m : Mnemonic) (o p : Operands) (s : State), o.wf s.cfg.limbs = true →
    p.wf s.cfg.limbs = true → agreeOnReads m o p = true →
    exec (Instr.ofMnemonic m o) s = exec (Instr.ofMnemonic m p) s

/-- R96: the two builds of unit U1 give the same pair, so a step of a block of the other build does the
same. -/
def Obligations.CapabilityFlagIsInvisible : Prop :=
  (∀ x y : Limb, mulFull .native x y = mulFull .generic x y) ∧
  (∀ (s : State) (cap : Cap) (t : State), step s = .next t →
    step (s.withCap cap) = .next (t.withCap cap)) ∧
  (∀ (s : State) (cap : Cap) (e : Refusal), step s = .refused e ↔ step (s.withCap cap) = .refused e)

/-- R48: a block with acceptable commands pending answers each of them exactly once, in their order, each
with the response it gets issued alone, which does not depend on `CAP`. -/
def Obligations.CommandsAnsweredOnceInOrderEachAsIfAlone : Prop :=
  (∀ s : State, (∀ c ∈ s.pending, acceptable s.cfg.limbs c = true) →
    ∃ t, Host.Core.run core s.pending.length s = .next t ∧ t.pending = [] ∧ t.cfg = s.cfg ∧
      t.responses.map some = s.responses.map some ++ s.pending.map (execN s.cfg)) ∧
  (∀ (cfg cfg' : Config) (c : Cmd), cfg.limbs = cfg'.limbs → execN cfg c = execN cfg' c)

/-- R48, R250, R253: whatever the host issues and resets between the steps, from any state, the responses
delivered before stay, and the new ones are the responses, issued alone, of some of the commands pending
or issued, in their order and each at most once. A run that contains a reserved
command has no next state (R64). -/
def Obligations.AnyScheduleDeliversInOrderOnlyOwnResponses : Prop :=
  ∀ (es : List Event) (s t : State), runEvents es s = .next t →
    t.cfg = s.cfg ∧
    ∃ rs : List Rsp, t.responses = s.responses ++ rs ∧
      List.Sublist (rs.map some) ((s.pending ++ issuedCommands es).map (execN s.cfg))

/-- R220, R255: a run of acceptable commands ends in no fault and no refusal, whatever the number of steps.
That the steps after the last command answer a next state too is the model's choice (DESIGN CHOICE, log
entry 5), which the spec does not state. -/
def Obligations.AcceptableRunsAreSafe : Prop :=
  ∀ (k : Nat) (s : State), (∀ c ∈ s.pending, acceptable s.cfg.limbs c = true) → SafeRun k s

/-! ### The other circuits compute the same -/

/-- R95: the bounds of the generic build's sequence, and that it gives the exact product. -/
def Obligations.GenericSequenceStaysInLimbsAndIsExact : Prop :=
  ∀ x y : Limb,
    let g := genericSteps x y
    (∀ t ∈ [g.t0, g.t1, g.t2, g.t3], t ≤ (2 ^ 32 - 1) ^ 2) ∧ g.t0 / 2 ^ 32 ≤ 2 ^ 32 - 2 ∧
    g.u1 ≤ 2 ^ 64 - 2 ^ 32 - 1 ∧ g.u2 ≤ 2 ^ 64 - 2 ^ 32 ∧ g.lo < 2 ^ 64 ∧ g.hi < 2 ^ 64 ∧
    g.lo = x.toNat * y.toNat % 2 ^ 64 ∧ g.hi = x.toNat * y.toNat / 2 ^ 64

/-- R112: the adder in 64-bit values is the 65-bit chain, and `c1` and `c2` are never both 1. -/
def Obligations.SixtyFourBitAdderIsTheChain : Prop :=
  (∀ (c : Bool) (a b : Value), addChain64 c a b = addChain c a b) ∧
  (∀ (a b : Limb) (c : Bool), ¬ ((addStep64 a b c).2.1 = true ∧ (addStep64 a b c).2.2 = true))

/-- R115: the subtractor in 64-bit values is the borrow chain, and `b1` and `b2` are never both 1. -/
def Obligations.SixtyFourBitSubtractorIsTheChain : Prop :=
  (∀ (bw : Bool) (a b : Value), subChain64 bw a b = subChain bw a b) ∧
  (∀ (a b : Limb) (bw : Bool), ¬ ((subStep64 a b bw).2.1 = true ∧ (subStep64 a b bw).2.2 = true))

/-- R116: the two's-complement form gives the limbs of the borrow chain and the inverse of its borrow; as
two passes at most one carries out. -/
def Obligations.TwosComplementSubtractorIsTheChain : Prop :=
  ∀ a b : Value, a.length = b.length →
    val (notLimbs b) = 2 ^ (64 * b.length) - 1 - val b ∧
    subByComplement a b = ((subChain false a b).1, !(subChain false a b).2) ∧
    (subByTwoPasses a b).1 = (subChain false a b).1 ∧
    ¬ ((subByTwoPasses a b).2.1 = true ∧ (subByTwoPasses a b).2.2 = true) ∧
    (a ≠ [] → (subChain false a b).2 = !((subByTwoPasses a b).2.1 || (subByTwoPasses a b).2.2))

/-- R150, R151: the bit-halving search counts the leading zeros of every limb, zero included. -/
def Obligations.BitHalvingCountsLeadingZeros : Prop :=
  (∀ x : Limb, clz64Halving x = clz64 x) ∧ clz64 0 = 64 ∧
  (∀ (x : Limb) (m : Nat), 2 ^ m ≤ x.toNat → x.toNat < 2 ^ (m + 1) → clz64 x = 63 - m)

/-- R195: the truncated rows give the low limbs of the full rows, and MUL delivers them. -/
def Obligations.TruncatedRowsAreTheLowHalf : Prop :=
  (∀ (cap : Cap) (n : Nat) (a b : Value),
    truncatedProduct cap n a b = (fullProduct cap n a b).take n) ∧
  (∀ (o : Operands) (s : State), o.wf s.cfg.limbs = true →
    exec (.mul o) s = .next { s with responses := s.responses ++
      [⟨truncatedProduct s.cfg.cap s.cfg.limbs o.a o.b ++ List.replicate s.cfg.limbs 0#64, false⟩] })

/-- R202: the column-by-column product is the row-by-row one, and its accumulator stays below
`2N·2^64`. -/
def Obligations.ColumnProductIsTheRowProduct : Prop :=
  ∀ (cap : Cap) (n : Nat) (a b : Value), a.length = n → b.length = n →
    columnProduct cap n a b = fullProduct cap n a b ∧
    (0 < n → ∀ k, columnAcc cap n a b k < 2 * n * 2 ^ 64)

/-! ### Laws between operations, on the responses `exec_N` gives -/

/-- R99: the laws of `mul_full`. -/
def Obligations.MulFullLaws : Prop :=
  ∀ (cap : Cap) (x y : Limb),
    mulFull cap x y = mulFull cap y x ∧ mulFull cap x 0 = (0, 0) ∧ mulFull cap x 1 = (x, 0) ∧
    (∀ k, 1 ≤ k → k ≤ 63 →
      mulFull cap x (BitVec.ofNat 64 (2 ^ k)) = (shl64 x k, shr64 x (64 - k))) ∧
    (1 ≤ y.toNat → mulFull cap (BitVec.ofNat 64 (2 ^ 64 - 1)) y =
      (BitVec.ofNat 64 (2 ^ 64 - y.toNat), BitVec.ofNat 64 (y.toNat - 1)))

/-- R118: SUB undoes ADD, from either operand, and ADD undoes SUB. -/
def Obligations.AddSubRoundTrip : Prop :=
  ∀ (cfg : Config) (a b : Value) (h1 h2 : BitVec 64), a.length = cfg.limbs → b.length = cfg.limbs →
    (∃ x, execLo cfg ⟨0x1, a, b, h1⟩ = some x ∧ execLo cfg ⟨0x2, x, b, h2⟩ = some a ∧
      execLo cfg ⟨0x2, x, a, h2⟩ = some b) ∧
    (∃ x, execLo cfg ⟨0x2, a, b, h1⟩ = some x ∧ execLo cfg ⟨0x1, x, b, h2⟩ = some a)

/-- R119: the further laws of the adder and the subtractor. -/
def Obligations.AddSubLaws : Prop :=
  ∀ (cfg : Config) (a b c : Value), a.length = cfg.limbs → b.length = cfg.limbs →
    c.length = cfg.limbs →
    execN cfg ⟨0x1, a, b, 0⟩ = execN cfg ⟨0x1, b, a, 0⟩ ∧
    (∃ ab bc abc, execLo cfg ⟨0x1, a, b, 0⟩ = some ab ∧ execLo cfg ⟨0x1, b, c, 0⟩ = some bc ∧
      execLo cfg ⟨0x1, ab, c, 0⟩ = some abc ∧ execLo cfg ⟨0x1, a, bc, 0⟩ = some abc) ∧
    (∃ nb d, execLo cfg (encodeCmd (pseudoNeg cfg.limbs b)) = some nb ∧
      execLo cfg ⟨0x2, a, b, 0⟩ = some d ∧ execLo cfg ⟨0x1, a, nb, 0⟩ = some d) ∧
    (∃ r q, execN cfg ⟨0x1, a, b, 0⟩ = some r ∧ execN cfg ⟨0x2, rLo cfg.limbs r, b, 0⟩ = some q ∧
      r.cout = q.cout)

/-- R117: negation as SUB from zero and as NOT then ADD ONE: one value, and the two flags. -/
def Obligations.NegationLaws : Prop :=
  ∀ (cfg : Config) (b : Value), b.length = cfg.limbs →
    ∃ nb p q, execN cfg ⟨0x2, valueZero cfg.limbs, b, 0⟩ = some p ∧
      execLo cfg ⟨0x3, b, b, 0⟩ = some nb ∧
      execN cfg ⟨0x1, nb, valueOne cfg.limbs, 0⟩ = some q ∧
      rLo cfg.limbs p = rLo cfg.limbs q ∧
      val (rLo cfg.limbs p) = (2 ^ cfg.width - val b) % 2 ^ cfg.width ∧
      (p.cout = true ↔ val b ≠ 0) ∧ (q.cout = true ↔ val b = 0)

/-- R134: limb `i` of a bitwise result is the operation on limbs `i` of the operands. -/
def Obligations.BitwiseHasNoCrossLimbInteraction : Prop :=
  ∀ (cfg : Config) (a b : Value) (h : BitVec 64), a.length = cfg.limbs → b.length = cfg.limbs →
    ∃ n c d x, execLo cfg ⟨0x3, a, b, h⟩ = some n ∧ execLo cfg ⟨0x4, a, b, h⟩ = some c ∧
      execLo cfg ⟨0x5, a, b, h⟩ = some d ∧ execLo cfg ⟨0x6, a, b, h⟩ = some x ∧
      ∀ i k, i < cfg.limbs → k < 64 →
        (limb n i).getLsbD k = !(limb a i).getLsbD k ∧
        (limb c i).getLsbD k = ((limb a i).getLsbD k && (limb b i).getLsbD k) ∧
        (limb d i).getLsbD k = ((limb a i).getLsbD k || (limb b i).getLsbD k) ∧
        (limb x i).getLsbD k = ((limb a i).getLsbD k ^^ (limb b i).getLsbD k)

/-- R135: every bit position is addressable. -/
def Obligations.EveryBitPositionIsAddressable : Prop :=
  ∀ (cfg : Config) (k : Nat), k < cfg.width →
    ∃ p m q, execLo cfg ⟨0x8, valueOne cfg.limbs, valueZero cfg.limbs, BitVec.ofNat 64 k⟩ = some p ∧
      execLo cfg ⟨0x3, valueZero cfg.limbs, valueZero cfg.limbs, 0⟩ = some m ∧
      execLo cfg ⟨0x4, p, m, 0⟩ = some q ∧ val q = 2 ^ k

/-- R136: the laws tying the bitwise unit to the adder. -/
def Obligations.BitwiseAdderLaws : Prop :=
  ∀ (cfg : Config) (a b : Value), a.length = cfg.limbs → b.length = cfg.limbs →
    ∃ n c d x g, execLo cfg ⟨0x3, a, b, 0⟩ = some n ∧ execLo cfg ⟨0x4, a, b, 0⟩ = some c ∧
      execLo cfg ⟨0x5, a, b, 0⟩ = some d ∧ execLo cfg ⟨0x6, a, b, 0⟩ = some x ∧
      execLo cfg (encodeCmd (pseudoNeg cfg.limbs a)) = some g ∧
      val a + val n = 2 ^ cfg.width - 1 ∧ val a + val b = val x + 2 * val c ∧
      val d + val c = val a + val b ∧ execLo cfg ⟨0x1, n, valueOne cfg.limbs, 0⟩ = some g

/-- R157: the laws of the count with the shifts: one limb, normalisation, a right shift, and the bounds
of a value by its count. -/
def Obligations.LeadingZeroLaws : Prop :=
  ∀ (cfg : Config) (a : Value), a.length = cfg.limbs →
    (∀ x : Limb, clz (limbsN cfg.limbs x.toNat) = 64 * (cfg.limbs - 1) + clz64 x) ∧
    (val a ≠ 0 → ∃ r y, execN cfg ⟨0x7, a, a, 0⟩ = some r ∧
      execLo cfg ⟨0x8, a, a, limb r.r 0⟩ = some y ∧
      (val y).testBit (cfg.width - 1) = true ∧ val y = val a * 2 ^ (limb r.r 0).toNat) ∧
    (∀ s : BitVec 64, s.toNat < cfg.width → ∃ z, execLo cfg ⟨0x9, a, a, s⟩ = some z ∧
      clz z = min cfg.width (clz a + s.toNat)) ∧
    val a < 2 ^ (cfg.width - clz a) ∧ (val a ≠ 0 → 2 ^ (cfg.width - 1 - clz a) ≤ val a)

/-- R178: LSR undoes SHL when no bit is pushed out; what is left without that condition; and the
condition in terms of the count. -/
def Obligations.ShiftRoundTrip : Prop :=
  ∀ (cfg : Config) (a : Value) (s : BitVec 64), a.length = cfg.limbs → s.toNat < cfg.width →
    (val a < 2 ^ (cfg.width - s.toNat) ↔ s.toNat ≤ clz a) ∧
    (∃ u v, execLo cfg ⟨0x8, a, a, s⟩ = some u ∧ execLo cfg ⟨0x9, u, u, s⟩ = some v ∧
      val v = val a % 2 ^ (cfg.width - s.toNat) ∧
      (val a < 2 ^ (cfg.width - s.toNat) → v = a)) ∧
    (∃ u v, execLo cfg ⟨0x9, a, a, s⟩ = some u ∧ execLo cfg ⟨0x8, u, u, s⟩ = some v ∧
      val v = val a - val a % 2 ^ s.toNat)

/-- R176, R177: amount 0 is the identity, and every amount from `W` to `2^64 - 1` gives zero. -/
def Obligations.ShiftByZeroAndOverWide : Prop :=
  ∀ (cfg : Config) (a b : Value) (s : BitVec 64), a.length = cfg.limbs → b.length = cfg.limbs →
    execLo cfg ⟨0x8, a, b, 0⟩ = some a ∧ execLo cfg ⟨0x9, a, b, 0⟩ = some a ∧
    (cfg.width ≤ s.toNat →
      execLo cfg ⟨0x8, a, b, s⟩ = some (valueZero cfg.limbs) ∧
      execLo cfg ⟨0x9, a, b, s⟩ = some (valueZero cfg.limbs))

/-- R180: two shifts compose, SHL is multiplication by a power of two, and `SHL a, 1` is `ADD a, a`, whose
`cout` is the bit SHL drops. -/
def Obligations.ShiftLaws : Prop :=
  ∀ (cfg : Config) (a : Value) (s1 s2 : BitVec 64), a.length = cfg.limbs →
    (∃ u v, execLo cfg ⟨0x8, a, a, s1⟩ = some u ∧ execLo cfg ⟨0x8, u, u, s2⟩ = some v ∧
      (s1.toNat + s2.toNat < 2 ^ 64 →
        execLo cfg ⟨0x8, a, a, BitVec.ofNat 64 (s1.toNat + s2.toNat)⟩ = some v) ∧
      (cfg.width ≤ s1.toNat + s2.toNat → v = valueZero cfg.limbs)) ∧
    (∃ u v, execLo cfg ⟨0x9, a, a, s1⟩ = some u ∧ execLo cfg ⟨0x9, u, u, s2⟩ = some v ∧
      (s1.toNat + s2.toNat < 2 ^ 64 →
        execLo cfg ⟨0x9, a, a, BitVec.ofNat 64 (s1.toNat + s2.toNat)⟩ = some v) ∧
      (cfg.width ≤ s1.toNat + s2.toNat → v = valueZero cfg.limbs)) ∧
    (s1.toNat < cfg.width →
      execLo cfg ⟨0x8, a, a, s1⟩ = execLo cfg ⟨0xA, a, limbsN cfg.limbs (2 ^ s1.toNat), 0⟩) ∧
    (∃ u r, execLo cfg ⟨0x8, a, a, 1⟩ = some u ∧ execN cfg ⟨0x1, a, a, 0⟩ = some r ∧
      rLo cfg.limbs r = u ∧ r.cout = (val a).testBit (cfg.width - 1))

/-- R196: MUL's `r_lo` is MULX's. -/
def Obligations.MulIsTheLowHalfOfMulx : Prop :=
  ∀ (cfg : Config) (a b : Value) (h : BitVec 64), a.length = cfg.limbs → b.length = cfg.limbs →
    ∃ x, execLo cfg ⟨0xA, a, b, h⟩ = some x ∧ execLo cfg ⟨0xB, a, b, h⟩ = some x

/-- R197: multiplication by a number is that many additions. -/
def Obligations.ScalarProductIsRepeatedAddition : Prop :=
  ∀ (cfg : Config) (a : Value) (k : Nat), a.length = cfg.limbs → k < 2 ^ 64 →
    ∃ x, execLo cfg (encodeCmd (pseudoMulk cfg.limbs a k)) = some x ∧ repeatAdd cfg a k = some x

/-- R199: MUL and MULX commute, MUL associates and distributes over ADD, and MULX of two one-limb values
gives MULFULL's response. -/
def Obligations.ProductLaws : Prop :=
  ∀ (cfg : Config) (a b c : Value), a.length = cfg.limbs → b.length = cfg.limbs →
    c.length = cfg.limbs →
    execN cfg ⟨0xA, a, b, 0⟩ = execN cfg ⟨0xA, b, a, 0⟩ ∧
    execN cfg ⟨0xB, a, b, 0⟩ = execN cfg ⟨0xB, b, a, 0⟩ ∧
    (∃ ab bc abc, execLo cfg ⟨0xA, a, b, 0⟩ = some ab ∧ execLo cfg ⟨0xA, b, c, 0⟩ = some bc ∧
      execLo cfg ⟨0xA, ab, c, 0⟩ = some abc ∧ execLo cfg ⟨0xA, a, bc, 0⟩ = some abc) ∧
    (∃ bc ab ac x, execLo cfg ⟨0x1, b, c, 0⟩ = some bc ∧ execLo cfg ⟨0xA, a, b, 0⟩ = some ab ∧
      execLo cfg ⟨0xA, a, c, 0⟩ = some ac ∧ execLo cfg ⟨0xA, a, bc, 0⟩ = some x ∧
      execLo cfg ⟨0x1, ab, ac, 0⟩ = some x) ∧
    (cfg.limbs = 1 → ∃ r, execN cfg ⟨0xB, a, b, 0⟩ = some r ∧ execN cfg ⟨0x0, a, b, 0⟩ = some r) ∧
    (∀ x y : Limb, ∃ r,
      execN cfg ⟨0xB, limbsN cfg.limbs x.toNat, limbsN cfg.limbs y.toNat, 0⟩ = some r ∧
      execN cfg ⟨0x0, limbsN cfg.limbs x.toNat, limbsN cfg.limbs y.toNat, 0⟩ = some r ∧
      limb r.r 0 = (mulFull cfg.cap x y).1 ∧ limb r.r 1 = (mulFull cfg.cap x y).2)

/-- R68: what each pseudo-operation computes, and the operand literals. -/
def Obligations.PseudoOperationsCompute : Prop :=
  ∀ (cfg : Config) (a : Value) (k : Nat), a.length = cfg.limbs →
    (∃ x, execLo cfg (encodeCmd (pseudoNeg cfg.limbs a)) = some x ∧
      val x = (2 ^ cfg.width - val a) % 2 ^ cfg.width) ∧
    (k < 2 ^ cfg.width → ∃ x, execLo cfg (encodeCmd (pseudoMulk cfg.limbs a k)) = some x ∧
      val x = val a * k % 2 ^ cfg.width) ∧
    execLo cfg (encodeCmd (pseudoMov cfg.limbs a)) = some a ∧
    val (valueZero cfg.limbs) = 0 ∧ val (valueOne cfg.limbs) = 1 ∧
    val (valueMax cfg.limbs) = 2 ^ cfg.width - 1

/-- R67 as log entry 17 reads it: a line whose operands stand for values issues one acceptable command, is
answered, and names the response it got. -/
def Obligations.TranscriptLineNamesItsResponse : Prop :=
  ∀ (cfg : Config) (h : HostNames) (l : Line) (o : Operands), l.operands cfg.limbs h = some o →
    acceptable cfg.limbs (encodeCmd (Instr.ofMnemonic l.op o)) = true ∧
    ∃ r, execN cfg (encodeCmd (Instr.ofMnemonic l.op o)) = some r ∧
      runLine cfg h l = some
        { values := (l.dst, dstValue cfg.limbs l.op r) :: h.values
          flags := (l.flag.toList.map fun f => (f, r.cout)) ++ h.flags }
end

