-- ==== Sys2Proof/Laws/Limbs.lean ====
section
/-! SUPPORT. The arithmetic of limb sequences: `val` and `limbsN` are inverse to each other between the
`n`-limb values and the numbers below `2^(64·n)` (00_scope.md R12, 10_state.md R22, R23). -/

namespace Sys2Proof

@[simp] theorem val_nil : val [] = 0 := rfl

@[simp] theorem val_cons (x : Limb) (xs : Value) : val (x :: xs) = x.toNat + 2 ^ 64 * val xs := rfl

@[simp] theorem limbsN_zero (v : Nat) : limbsN 0 v = [] := rfl

theorem limbsN_succ (n v : Nat) :
    limbsN (n + 1) v = BitVec.ofNat 64 v :: limbsN n (v / 2 ^ 64) := rfl

theorem pow_limbs_succ (n : Nat) : 2 ^ (64 * (n + 1)) = 2 ^ 64 * 2 ^ (64 * n) := by
  rw [Nat.mul_succ, Nat.pow_add, Nat.mul_comm]

theorem val_lt (a : Value) : val a < 2 ^ (64 * a.length) := by
  induction a with
  | nil => simp
  | cons x xs ih =>
    rw [val_cons, List.length_cons, pow_limbs_succ]
    have := x.isLt
    have : 2 ^ 64 * (val xs + 1) ≤ 2 ^ 64 * 2 ^ (64 * xs.length) := Nat.mul_le_mul_left _ ih
    omega

@[simp] theorem limbsN_length (n v : Nat) : (limbsN n v).length = n := by
  induction n generalizing v with
  | zero => rfl
  | succ n ih => simp [limbsN_succ, ih]

/-- The value of the `n` low limbs of `v` is `v` modulo `2^(64·n)`. -/
theorem val_limbsN (n v : Nat) : val (limbsN n v) = v % 2 ^ (64 * n) := by
  induction n generalizing v with
  | zero => simp [Nat.mod_one]
  | succ n ih =>
    rw [limbsN_succ, val_cons, ih, BitVec.toNat_ofNat, pow_limbs_succ, Nat.mod_mul]

/-- A limb sequence is the limbs of its value. -/
theorem limbsN_val (a : Value) : limbsN a.length (val a) = a := by
  induction a with
  | nil => rfl
  | cons x xs ih =>
    have hx := x.isLt
    have hdiv : (x.toNat + 2 ^ 64 * val xs) / 2 ^ 64 = val xs := by omega
    have hmod : BitVec.ofNat 64 (x.toNat + 2 ^ 64 * val xs) = x := by
      apply BitVec.eq_of_toNat_eq
      rw [BitVec.toNat_ofNat]
      omega
    rw [List.length_cons, limbsN_succ, val_cons, hdiv, hmod, ih]

/-- A limb sequence of `n` limbs with value `v` is `limbsN n v`. -/
theorem eq_limbsN {a : Value} {n v : Nat} (hn : a.length = n) (hv : val a = v) : a = limbsN n v := by
  rw [← hn, ← hv, limbsN_val]

theorem val_limbsN_of_lt {n v : Nat} (h : v < 2 ^ (64 * n)) : val (limbsN n v) = v := by
  rw [val_limbsN, Nat.mod_eq_of_lt h]

theorem limbsN_mod (n v : Nat) : limbsN n (v % 2 ^ (64 * n)) = limbsN n v :=
  (eq_limbsN (limbsN_length n v) (val_limbsN n v)).symm

theorem val_inj {a b : Value} (hl : a.length = b.length) (hv : val a = val b) : a = b := by
  rw [← limbsN_val a, ← limbsN_val b, hl, hv]

theorem val_append (a b : Value) : val (a ++ b) = val a + 2 ^ (64 * a.length) * val b := by
  induction a with
  | nil => simp
  | cons x xs ih =>
    rw [List.cons_append, val_cons, ih, val_cons, List.length_cons, pow_limbs_succ]
    ring

@[simp] theorem val_replicate_zero (n : Nat) : val (List.replicate n 0#64) = 0 := by
  induction n with
  | zero => rfl
  | succ n ih => rw [List.replicate_succ, val_cons, ih]; rfl

theorem val_take (n : Nat) (a : Value) : val (a.take n) = val a % 2 ^ (64 * n) := by
  induction n generalizing a with
  | zero => simp [Nat.mod_one]
  | succ n ih =>
    cases a with
    | nil => simp
    | cons x xs =>
      have hx := x.isLt
      rw [List.take_succ_cons, val_cons, ih, val_cons, pow_limbs_succ, Nat.mod_mul]
      congr 1
      · omega
      · congr 2
        omega

theorem val_drop (n : Nat) (a : Value) : val (a.drop n) = val a / 2 ^ (64 * n) := by
  induction n generalizing a with
  | zero => simp
  | succ n ih =>
    cases a with
    | nil => simp
    | cons x xs =>
      have hx := x.isLt
      rw [List.drop_succ_cons, ih, val_cons, pow_limbs_succ, ← Nat.div_div_eq_div_mul]
      congr 1
      omega

@[simp] theorem limb_cons_zero (x : Limb) (xs : Value) : limb (x :: xs) 0 = x := rfl

@[simp] theorem limb_cons_succ (x : Limb) (xs : Value) (i : Nat) :
    limb (x :: xs) (i + 1) = limb xs i := rfl

@[simp] theorem limb_nil (i : Nat) : limb [] i = 0 := by simp [limb]

theorem limb_of_le {a : Value} {i : Nat} (h : a.length ≤ i) : limb a i = 0 := by
  simp [limb, List.getElem?_eq_none h]

/-- Limb `i` of a sequence is the base-`2^64` digit `i` of its value. -/
theorem limb_toNat (a : Value) (i : Nat) : (limb a i).toNat = val a / 2 ^ (64 * i) % 2 ^ 64 := by
  induction i generalizing a with
  | zero =>
    cases a with
    | nil => simp
    | cons x xs =>
      have hx := x.isLt
      simp only [limb_cons_zero, val_cons, Nat.mul_zero, Nat.pow_zero, Nat.div_one]
      omega
  | succ i ih =>
    cases a with
    | nil => simp
    | cons x xs =>
      have hx := x.isLt
      rw [limb_cons_succ, ih, val_cons, pow_limbs_succ, ← Nat.div_div_eq_div_mul]
      congr 2
      omega

/-- 20_memory.md R42: bit `k` of the value is bit `k mod 64` of limb `k div 64`. -/
theorem testBit_val (a : Value) (k : Nat) :
    (val a).testBit k = (limb a (k / 64)).getLsbD (k % 64) := by
  have hk : k % 64 < 64 := Nat.mod_lt _ (by decide)
  rw [← BitVec.testBit_toNat, limb_toNat, Nat.testBit_mod_two_pow, Nat.testBit_div_two_pow]
  simp only [hk, decide_true, Bool.true_and]
  congr 1
  omega

theorem shl64_toNat (v : Limb) (k : Nat) : (shl64 v k).toNat = v.toNat * 2 ^ k % 2 ^ 64 := rfl

theorem shr64_toNat (v : Limb) (k : Nat) : (shr64 v k).toNat = v.toNat / 2 ^ k :=
  Nat.mod_eq_of_lt (Nat.lt_of_le_of_lt (Nat.div_le_self _ _) v.isLt)

end Sys2Proof
end

