-- ==== Sys2Proof/Laws/State.lean ====
section
/-! SUPPORT. What each update of the state leaves in each field, and what the shared operations of
Machine/Ops.lean can do. -/

namespace Sys2Proof.Machine

@[simp] theorem deliver_cfg (s : State) (r : Rsp) : (s.deliver r).cfg = s.cfg := rfl
@[simp] theorem deliver_pending (s : State) (r : Rsp) : (s.deliver r).pending = s.pending := rfl
@[simp] theorem deliver_responses (s : State) (r : Rsp) :
    (s.deliver r).responses = s.responses ++ [r] := rfl

@[simp] theorem issue_cfg (s : State) (c : Cmd) : (s.issue c).cfg = s.cfg := rfl
@[simp] theorem issue_pending (s : State) (c : Cmd) : (s.issue c).pending = s.pending ++ [c] := rfl
@[simp] theorem issue_responses (s : State) (c : Cmd) : (s.issue c).responses = s.responses := rfl

@[simp] theorem issueOnly_cfg (s : State) (c : Cmd) : (s.issueOnly c).cfg = s.cfg := rfl
@[simp] theorem issueOnly_pending (s : State) (c : Cmd) : (s.issueOnly c).pending = [c] := rfl
@[simp] theorem issueOnly_responses (s : State) (c : Cmd) :
    (s.issueOnly c).responses = s.responses := rfl

@[simp] theorem dropPending_cfg (s : State) : s.dropPending.cfg = s.cfg := rfl
@[simp] theorem dropPending_pending (s : State) : s.dropPending.pending = [] := rfl
@[simp] theorem dropPending_responses (s : State) : s.dropPending.responses = s.responses := rfl

@[simp] theorem resetFor_cfg (cfg : Config) : (State.resetFor cfg).cfg = cfg := rfl
@[simp] theorem resetFor_pending (cfg : Config) : (State.resetFor cfg).pending = [] := rfl
@[simp] theorem resetFor_responses (cfg : Config) : (State.resetFor cfg).responses = [] := rfl

@[simp] theorem withCap_pending (s : State) (cap : Cap) : (s.withCap cap).pending = s.pending := rfl
@[simp] theorem withCap_responses (s : State) (cap : Cap) :
    (s.withCap cap).responses = s.responses := rfl
@[simp] theorem withCap_limbs (s : State) (cap : Cap) :
    (s.withCap cap).cfg.limbs = s.cfg.limbs := rfl
@[simp] theorem withCap_cap (s : State) (cap : Cap) : (s.withCap cap).cfg.cap = cap := rfl

/-- Taking a command needs one pending. -/
theorem take_nil {s : State} (h : s.pending = []) : s.take = none := by
  simp [State.take, h]

theorem take_cons {s : State} {c : Cmd} {rest : List Cmd} (h : s.pending = c :: rest) :
    s.take = some (c, { s with pending := rest }) := by
  simp [State.take, h]

/-- All a guard can do: refuse for the refused command pending, or nothing. -/
theorem guardPending_of_none {s : State} (h : s.pendingRefusal = none)
    (k : Host.Outcome State Fault Refusal) : guardPending s k = k := by
  simp [guardPending, h]

theorem guardPending_of_some {s : State} {e : Refusal} (h : s.pendingRefusal = some e)
    (k : Host.Outcome State Fault Refusal) : guardPending s k = .refused e := by
  simp [guardPending, h]

theorem guardPending_eq_next {s t : State} {k : Host.Outcome State Fault Refusal}
    (h : guardPending s k = .next t) : s.pendingRefusal = none ∧ k = .next t := by
  cases hr : s.pendingRefusal with
  | none => exact ⟨rfl, by rwa [guardPending_of_none hr] at h⟩
  | some e => rw [guardPending_of_some hr] at h; cases h

/-- All `answer` can do: deliver the one response, or refuse a record of another limb count. -/
theorem answer_of_wf {s : State} {o : Operands} (h : o.wf s.cfg.limbs = true) (v : Value)
    (c : Bool) : answer s o v c = .next (s.deliver ⟨extend s.cfg.limbs v, c⟩) := by
  simp [answer, h]

theorem answer_of_not_wf {s : State} {o : Operands} (h : o.wf s.cfg.limbs = false) (v : Value)
    (c : Bool) : answer s o v c = .refused .limbCount := by
  simp [answer, h]

theorem answer_eq_next {s t : State} {o : Operands} {v : Value} {c : Bool}
    (h : answer s o v c = .next t) :
    o.wf s.cfg.limbs = true ∧ t = s.deliver ⟨extend s.cfg.limbs v, c⟩ := by
  cases hw : o.wf s.cfg.limbs with
  | false => rw [answer_of_not_wf hw] at h; cases h
  | true => rw [answer_of_wf hw] at h; cases h; exact ⟨rfl, rfl⟩

end Sys2Proof.Machine
end

