-- ==== Sys2Proof/Laws/Result.lean ====
section
/-! SUPPORT. The placement of a result in `rsp.r` (10_state.md R27), in terms of the number it stands for. -/

namespace Sys2Proof.Machine

theorem wf_iff {n : Nat} {o : Operands} : o.wf n = true ↔ o.a.length = n ∧ o.b.length = n := by
  simp [Operands.wf]

theorem extend_length {n : Nat} {xs : Value} (h : xs.length ≤ 2 * n) :
    (extend n xs).length = 2 * n := by
  simp [extend]
  omega

@[simp] theorem val_extend (n : Nat) (xs : Value) : val (extend n xs) = val xs := by
  simp [extend, val_append]

/-- A result of at most `2n` limbs in `rsp.r` is the `2n` limbs of its value. -/
theorem extend_eq_limbsN {n v : Nat} {xs : Value} (hl : xs.length ≤ 2 * n) (hv : val xs = v) :
    extend n xs = limbsN (2 * n) v :=
  eq_limbsN (extend_length hl) (by rw [val_extend, hv])

/-- What an operation answers when its result has the value `v`. -/
theorem answer_val {s : State} {o : Operands} {xs : Value} {c : Bool} {v : Nat}
    (h : o.wf s.cfg.limbs = true) (hl : xs.length ≤ 2 * s.cfg.limbs) (hv : val xs = v) :
    answer s o xs c = .next (s.deliver ⟨limbsN (2 * s.cfg.limbs) v, c⟩) := by
  rw [answer_of_wf h, extend_eq_limbsN hl hv]

end Sys2Proof.Machine
end

