-- ==== Sys2Proof/Laws/AddSub.lean ====
section
/-! SUPPORT. The adder and subtractor chains in unbounded integers (41_addsub.md R111, R115, R112). -/

namespace Sys2Proof.Machine

theorem sum65_toNat (a b : Limb) (c : Bool) : (sum65 a b c).toNat = a.toNat + b.toNat + c.toNat := by
  have ha := a.isLt
  have hb := b.isLt
  have hc := Bool.toNat_le c
  simp only [sum65, BitVec.toNat_add, BitVec.toNat_setWidth, BitVec.toNat_ofBool]
  omega

theorem carryBit_eq (s : BitVec 65) : (carryBit s).toNat = s.toNat / 2 ^ 64 := by
  have h := s.isLt
  rw [carryBit, ← BitVec.testBit_toNat, Nat.testBit_eq_decide_div_mod_eq]
  have hq : s.toNat / 2 ^ 64 < 2 := by omega
  generalize s.toNat / 2 ^ 64 = q at hq
  obtain rfl | rfl : q = 0 ∨ q = 1 := by omega
  · rfl
  · rfl

theorem carryBit_iff (s : BitVec 65) : carryBit s = true ↔ 2 ^ 64 ≤ s.toNat := by
  have h := s.isLt
  have hc := carryBit_eq s
  cases hb : carryBit s <;> rw [hb] at hc <;> simp at hc ⊢ <;> omega

/-- The induction of R111: sum limbs and carry out together are the exact sum. -/
theorem addChain_spec (c : Bool) (a b : Value) (h : a.length = b.length) :
    (addChain c a b).1.length = a.length ∧
    val (addChain c a b).1 + 2 ^ (64 * a.length) * (addChain c a b).2.toNat =
      val a + val b + c.toNat := by
  induction a generalizing b c with
  | nil =>
    cases b with
    | nil => simp [addChain]
    | cons y ys => simp at h
  | cons x xs ih =>
    cases b with
    | nil => simp at h
    | cons y ys =>
      obtain ⟨hl, hv⟩ := ih (carryBit (sum65 x y c)) ys (by simpa using h)
      refine ⟨by simp [addChain, hl], ?_⟩
      have hs := sum65_toNat x y c
      have hc := carryBit_eq (sum65 x y c)
      simp only [addChain, val_cons, List.length_cons, pow_limbs_succ, BitVec.extractLsb'_toNat,
        Nat.shiftRight_zero]
      rw [Nat.mul_assoc]
      omega

theorem ofInt_toNat (d : Int) : ((BitVec.ofInt 64 d).toNat : Int) = d % 2 ^ 64 := by
  rw [BitVec.toNat_ofInt]
  omega

/-- The induction of R115: difference limbs and borrow out together are the exact difference. -/
theorem subChain_spec (bw : Bool) (a b : Value) (h : a.length = b.length) :
    (subChain bw a b).1.length = a.length ∧
    val (subChain bw a b).1 + val b + bw.toNat =
      val a + 2 ^ (64 * a.length) * (subChain bw a b).2.toNat := by
  induction a generalizing b bw with
  | nil =>
    cases b with
    | nil => simp [subChain]
    | cons y ys => simp at h
  | cons x xs ih =>
    cases b with
    | nil => simp at h
    | cons y ys =>
      obtain ⟨hl, hv⟩ := ih (borrowBit (difference x y bw)) ys (by simpa using h)
      refine ⟨by simp [subChain, hl], ?_⟩
      have hx := x.isLt
      have hy := y.isLt
      have hb := Bool.toNat_le bw
      have hd := ofInt_toNat (difference x y bw)
      have hdef : difference x y bw = x.toNat - y.toNat - bw.toNat := rfl
      simp only [subChain, val_cons, List.length_cons, pow_limbs_succ]
      rw [Nat.mul_assoc]
      generalize difference x y bw = d at *
      have hbb : ((borrowBit d).toNat : Int) = -(d / 2 ^ 64) := by
        by_cases hlt : d < 0
        · simp only [borrowBit, hlt, decide_true, Bool.toNat_true]
          omega
        · simp only [borrowBit, hlt, decide_false, Bool.toNat_false]
          omega
      omega

/-- R112: one limb's addition in 64-bit values is the 65-bit one, and at most one of `c1`, `c2` is 1. -/
theorem addStep64_spec (a b : Limb) (c : Bool) :
    (addStep64 a b c).1 = (sum65 a b c).extractLsb' 0 64 ∧
    ((addStep64 a b c).2.1 || (addStep64 a b c).2.2) = carryBit (sum65 a b c) ∧
    ((addStep64 a b c).2.1 && (addStep64 a b c).2.2) = false := by
  have ha := a.isLt
  have hb := b.isLt
  have hs := sum65_toNat a b c
  have hz : ((BitVec.ofBool c).zeroExtend 64).toNat = c.toNat := by cases c <;> rfl
  have hcl := Bool.toNat_le c
  refine ⟨?_, ?_, ?_⟩
  · apply BitVec.eq_of_toNat_eq
    simp only [addStep64, BitVec.toNat_add, hz, BitVec.extractLsb'_toNat, Nat.shiftRight_zero, hs]
    omega
  · rw [Bool.eq_iff_iff, carryBit_iff, hs]
    simp only [addStep64, BitVec.lt_def, BitVec.toNat_add, hz, Bool.or_eq_true, decide_eq_true_iff]
    omega
  · simp only [addStep64, BitVec.lt_def, BitVec.toNat_add, hz, Bool.and_eq_false_iff,
      decide_eq_false_iff_not]
    omega

end Sys2Proof.Machine
end

