-- ==== Sys2Proof/Laws/Bitwise.lean ====
section
/-! SUPPORT. The bitwise operations limb by limb and in the numbers the values stand for
(42_bitwise.md R130 to R134). -/

namespace Sys2Proof.Machine

theorem val_map_not (a : Value) : val (a.map (fun x => ~~~x)) + val a = 2 ^ (64 * a.length) - 1 := by
  induction a with
  | nil => rfl
  | cons x xs ih =>
    have hx := x.isLt
    have hp : 0 < 2 ^ (64 * xs.length) := Nat.two_pow_pos _
    simp only [List.map_cons, val_cons, List.length_cons, pow_limbs_succ, BitVec.toNat_not]
    omega

theorem limb_zipWith (f : Limb → Limb → Limb) {a b : Value} (h : a.length = b.length)
    (hf : f 0 0 = 0) (i : Nat) : limb (List.zipWith f a b) i = f (limb a i) (limb b i) := by
  rcases Nat.lt_or_ge i a.length with hi | hi
  · have hb : i < b.length := h ▸ hi
    simp [limb, List.getElem?_zipWith, List.getElem?_eq_getElem hi, List.getElem?_eq_getElem hb]
  · rw [limb_of_le (by simp [h]; omega), limb_of_le hi, limb_of_le (h ▸ hi), hf]

theorem val_zipWith_and {a b : Value} (h : a.length = b.length) :
    val (List.zipWith (fun x y => x &&& y) a b) = val a &&& val b := by
  apply Nat.eq_of_testBit_eq
  intro k
  rw [Nat.testBit_and, testBit_val, testBit_val, testBit_val, limb_zipWith _ h (by decide),
    BitVec.getLsbD_and]

theorem val_zipWith_or {a b : Value} (h : a.length = b.length) :
    val (List.zipWith (fun x y => x ||| y) a b) = val a ||| val b := by
  apply Nat.eq_of_testBit_eq
  intro k
  rw [Nat.testBit_or, testBit_val, testBit_val, testBit_val, limb_zipWith _ h (by decide),
    BitVec.getLsbD_or]

theorem val_zipWith_xor {a b : Value} (h : a.length = b.length) :
    val (List.zipWith (fun x y => x ^^^ y) a b) = val a ^^^ val b := by
  apply Nat.eq_of_testBit_eq
  intro k
  rw [Nat.testBit_xor, testBit_val, testBit_val, testBit_val, limb_zipWith _ h (by decide),
    BitVec.getLsbD_xor]

end Sys2Proof.Machine
end

