-- ==== Sys2Proof/Laws/Clz.lean ====
section
/-! SUPPORT. The scan of R154 counts the zero bits above the highest set bit (43_clz.md R153). -/

namespace Sys2Proof.Machine

theorem log2_high {m x l : Nat} (hl : l < 2 ^ m) (hx : x ≠ 0) :
    Nat.log2 (l + 2 ^ m * x) = m + Nat.log2 x := by
  have hp : 0 < 2 ^ m := Nat.two_pow_pos m
  have hlo := Nat.log2_self_le hx
  have hhi := Nat.lt_log2_self (n := x)
  have hne : l + 2 ^ m * x ≠ 0 := by
    have : 0 < 2 ^ m * x := Nat.mul_pos hp (by omega)
    omega
  rw [Nat.log2_eq_iff hne]
  constructor
  · rw [Nat.pow_add]
    have := Nat.mul_le_mul_left (2 ^ m) hlo
    omega
  · have h1 : 2 ^ m * (x + 1) ≤ 2 ^ m * 2 ^ (Nat.log2 x + 1) := Nat.mul_le_mul_left _ hhi
    rw [Nat.add_assoc, Nat.pow_add]
    rw [Nat.mul_add] at h1
    omega

/-- The contract of the count (R153), as a function of a number of at most `w` bits. -/
def leadingZeros (w v : Nat) : Nat := if v = 0 then w else w - 1 - Nat.log2 v

theorem clz64_eq (x : Limb) : clz64 x = leadingZeros 64 x.toNat := by
  have h : x = 0 ↔ x.toNat = 0 :=
    ⟨fun h => by rw [h]; rfl, fun h => BitVec.eq_of_toNat_eq (by simpa using h)⟩
  simp only [clz64, leadingZeros, h]

theorem clzScan_spec (xs : Value) (k : Nat) :
    clzScan k xs = 64 * k + leadingZeros (64 * xs.length) (val xs.reverse) := by
  induction xs generalizing k with
  | nil => simp [clzScan, leadingZeros]
  | cons x xs ih =>
    have hv : val (x :: xs).reverse = val xs.reverse + 2 ^ (64 * xs.length) * x.toNat := by
      rw [List.reverse_cons, val_append, List.length_reverse]
      simp
    have hlt := val_lt xs.reverse
    rw [List.length_reverse] at hlt
    by_cases hx : x = 0
    · subst hx
      rw [clzScan, if_neg (by simp), ih, hv]
      simp only [leadingZeros, List.length_cons, BitVec.ofNat_eq_ofNat, BitVec.toNat_zero,
        Nat.mul_zero, Nat.add_zero]
      by_cases h0 : val xs.reverse = 0
      · simp only [h0, if_true]
        omega
      · have := (Nat.log2_lt h0).mpr hlt
        simp only [h0, if_false]
        omega
    · have hx0 : x.toNat ≠ 0 := fun h => hx (BitVec.eq_of_toNat_eq (by simpa using h))
      have h6 := (Nat.log2_lt hx0).mpr x.isLt
      have hne : val xs.reverse + 2 ^ (64 * xs.length) * x.toNat ≠ 0 := by
        have : 0 < 2 ^ (64 * xs.length) * x.toNat :=
          Nat.mul_pos (Nat.two_pow_pos _) (by omega)
        omega
      rw [clzScan, if_pos hx, clz64, if_neg hx, hv, leadingZeros, if_neg hne,
        log2_high hlt hx0, List.length_cons]
      omega

/-- R153: the contract of `clz`. -/
theorem clz_spec (a : Value) : clz a = leadingZeros (64 * a.length) (val a) := by
  simpa [clz] using clzScan_spec a.reverse 0

theorem leadingZeros_le (w v : Nat) : leadingZeros w v ≤ w := by
  unfold leadingZeros
  split <;> omega

end Sys2Proof.Machine
end

