-- ==== Sys2Proof/Laws/MulFull.lean ====
section
/-! SUPPORT. The two builds of unit U1 meet the contract `lo + hi·2^64 = x·y` (40_mulfull.md R90, R95). -/

namespace Sys2Proof.Machine

theorem mulFullNative_spec (x y : Limb) :
    (mulFullNative x y).1.toNat + 2 ^ 64 * (mulFullNative x y).2.toNat = x.toNat * y.toNat := by
  have hx := x.isLt
  have hy := y.isLt
  have hxy : x.toNat * y.toNat < 2 ^ 128 := by
    calc x.toNat * y.toNat < 2 ^ 64 * 2 ^ 64 := Nat.mul_lt_mul'' hx hy
      _ = 2 ^ 128 := by norm_num
  have hp : (x.zeroExtend 128 * y.zeroExtend 128).toNat = x.toNat * y.toNat := by
    have hx' : x.toNat % 2 ^ 128 = x.toNat := Nat.mod_eq_of_lt (by omega)
    have hy' : y.toNat % 2 ^ 128 = y.toNat := Nat.mod_eq_of_lt (by omega)
    rw [BitVec.toNat_mul, BitVec.toNat_setWidth, BitVec.toNat_setWidth, hx', hy',
      Nat.mod_eq_of_lt hxy]
  simp only [mulFullNative, BitVec.extractLsb'_toNat, hp, Nat.shiftRight_eq_div_pow]
  omega

/-- Each partial product of two 32-bit halves. -/
theorem half_mul_le {p q : Nat} (hp : p < 2 ^ 32) (hq : q < 2 ^ 32) :
    p * q ≤ (2 ^ 32 - 1) * (2 ^ 32 - 1) :=
  Nat.mul_le_mul (by omega) (by omega)

/-- R95: the bounds of the generic sequence and its sum. -/
theorem genericSteps_spec (x y : Limb) :
    (genericSteps x y).u1 ≤ 2 ^ 64 - 2 ^ 32 - 1 ∧ (genericSteps x y).u2 ≤ 2 ^ 64 - 2 ^ 32 ∧
    (genericSteps x y).lo < 2 ^ 64 ∧ (genericSteps x y).hi < 2 ^ 64 ∧
    (genericSteps x y).lo + 2 ^ 64 * (genericSteps x y).hi = x.toNat * y.toNat := by
  have hx := x.isLt
  have hy := y.isLt
  simp only [genericSteps, slice]
  norm_num only
  generalize hxl : x.toNat / 1 % 4294967296 = xl
  generalize hxh : x.toNat / 4294967296 % 4294967296 = xh
  generalize hyl : y.toNat / 1 % 4294967296 = yl
  generalize hyh : y.toNat / 4294967296 % 4294967296 = yh
  have ex : x.toNat = xl + 4294967296 * xh := by omega
  have ey : y.toNat = yl + 4294967296 * yh := by omega
  have exy : x.toNat * y.toNat =
      xl * yl + 4294967296 * (xh * yl) + 4294967296 * (xl * yh) +
        18446744073709551616 * (xh * yh) := by
    rw [ex, ey]; ring
  have h0 := half_mul_le (p := xl) (q := yl) (by omega) (by omega)
  have h1 := half_mul_le (p := xh) (q := yl) (by omega) (by omega)
  have h2 := half_mul_le (p := xl) (q := yh) (by omega) (by omega)
  have h3 := half_mul_le (p := xh) (q := yh) (by omega) (by omega)
  rw [exy]
  norm_num only at h0 h1 h2 h3
  generalize xl * yl = t0 at *
  generalize xh * yl = t1 at *
  generalize xl * yh = t2 at *
  generalize xh * yh = t3 at *
  refine ⟨?_, ?_, ?_, ?_, ?_⟩ <;> omega

theorem mulFullGeneric_spec (x y : Limb) :
    (mulFullGeneric x y).1.toNat + 2 ^ 64 * (mulFullGeneric x y).2.toNat = x.toNat * y.toNat := by
  obtain ⟨-, -, hlo, hhi, h⟩ := genericSteps_spec x y
  simp only [mulFullGeneric, BitVec.toNat_ofNat]
  rw [Nat.mod_eq_of_lt hlo, Nat.mod_eq_of_lt hhi, h]

/-- R90: the contract of `mul_full`, for either build. -/
theorem mulFull_spec (cap : Cap) (x y : Limb) :
    (mulFull cap x y).1.toNat + 2 ^ 64 * (mulFull cap x y).2.toNat = x.toNat * y.toNat := by
  cases cap with
  | native => exact mulFullNative_spec x y
  | generic => exact mulFullGeneric_spec x y

/-- R90: the pair is unique. -/
theorem pair_unique {p q : Limb × Limb}
    (h : p.1.toNat + 2 ^ 64 * p.2.toNat = q.1.toNat + 2 ^ 64 * q.2.toNat) : p = q := by
  have := p.1.isLt
  have := q.1.isLt
  apply Prod.ext <;> apply BitVec.eq_of_toNat_eq <;> omega

end Sys2Proof.Machine
end

