-- ==== Sys2Proof/Laws/Mul.lean ====
section
/-! SUPPORT. The rows of R194 add up to the exact product (45_mul.md R191, R194), and a shorter working
result holds the low limbs of a longer one (R195). -/

namespace Sys2Proof.Machine

theorem mulRow_length (cap : Cap) (bj : Limb) (as : Value) (c : Limb) (ws : Value) :
    (mulRow cap bj as c ws).length = ws.length := by
  induction as generalizing c ws with
  | nil => cases ws <;> simp [mulRow]
  | cons a as ih => cases ws <;> simp [mulRow, ih]

/-- One row leaves the limbs above the one its carry goes to. -/
theorem limb_mulRow_above (cap : Cap) (bj : Limb) (as : Value) (c : Limb) (ws : Value) (i : Nat)
    (hi : as.length < i) : limb (mulRow cap bj as c ws) i = limb ws i := by
  induction as generalizing c ws i with
  | nil =>
    cases ws with
    | nil => rfl
    | cons w ws =>
      obtain ⟨j, rfl⟩ : ∃ j, i = j + 1 := ⟨i - 1, by simp at hi; omega⟩
      rfl
  | cons a as ih =>
    cases ws with
    | nil => rfl
    | cons w ws =>
      obtain ⟨j, rfl⟩ : ∃ j, i = j + 1 := ⟨i - 1, by simp at hi; omega⟩
      simp only [mulRow, limb_cons_succ]
      exact ih _ _ _ (by simpa using hi)

/-- The next carry limb of a row is the exact carry: it fits in 64 bits (R194). -/
theorem row_carry (cap : Cap) (a b w c : Limb) :
    (BitVec.ofNat 64 (w.toNat + (mulFull cap a b).1.toNat + c.toNat)).toNat +
      2 ^ 64 * (BitVec.ofNat 64 ((mulFull cap a b).2.toNat +
        (w.toNat + (mulFull cap a b).1.toNat + c.toNat) / 2 ^ 64)).toNat =
    w.toNat + a.toNat * b.toNat + c.toNat := by
  have h := mulFull_spec cap a b
  have hw := w.isLt
  have hc := c.isLt
  have hab : a.toNat * b.toNat ≤ (2 ^ 64 - 1) * (2 ^ 64 - 1) :=
    Nat.mul_le_mul (by have := a.isLt; omega) (by have := b.isLt; omega)
  have hl := (mulFull cap a b).1.isLt
  rw [BitVec.toNat_ofNat, BitVec.toNat_ofNat, ← h]
  rw [← h] at hab
  norm_num only at hab ⊢
  omega

/-- One row adds `a · b[j]` and the carry into the window. -/
theorem val_mulRow (cap : Cap) (bj : Limb) (as : Value) (c : Limb) (ws : Value)
    (hl : as.length < ws.length) (h0 : limb ws as.length = 0) :
    val (mulRow cap bj as c ws) = val ws + val as * bj.toNat + c.toNat := by
  induction as generalizing c ws with
  | nil =>
    cases ws with
    | nil => simp at hl
    | cons w ws =>
      have hw : w = 0 := by simpa using h0
      subst hw
      simp [mulRow]
      omega
  | cons a as ih =>
    cases ws with
    | nil => simp at hl
    | cons w ws =>
      have hr := row_carry cap a bj w c
      have hi := ih (BitVec.ofNat 64 ((mulFull cap a bj).2.toNat +
        (w.toNat + (mulFull cap a bj).1.toNat + c.toNat) / 2 ^ 64)) ws
        (by simpa using hl) (by simpa using h0)
      simp only [mulRow, val_cons]
      rw [hi, Nat.add_mul, Nat.mul_assoc (2 ^ 64)]
      omega

theorem val_mulRows (cap : Cap) (a bs ws : Value) (hl : a.length + bs.length ≤ ws.length)
    (h0 : ∀ i, a.length ≤ i → limb ws i = 0) :
    val (mulRows cap a bs ws) = val ws + val a * val bs := by
  induction bs generalizing ws with
  | nil => simp [mulRows]
  | cons b bs ih =>
    simp only [List.length_cons] at hl
    have hv := val_mulRow cap b a 0#64 ws (by omega) (h0 _ (Nat.le_refl _))
    have hlen := mulRow_length cap b a 0#64 ws
    have habove := limb_mulRow_above cap b a 0#64 ws
    cases hrow : mulRow cap b a 0#64 ws with
    | nil => rw [hrow] at hlen; simp at hlen; omega
    | cons w ws' =>
      rw [hrow] at hv hlen habove
      simp only [List.length_cons] at hlen
      have hi := ih ws' (by omega) fun i hi => by
        rw [← limb_cons_succ w ws' i, habove (i + 1) (by omega), h0 (i + 1) (by omega)]
      simp only [val_cons, BitVec.toNat_zero, Nat.add_zero] at hv
      simp only [mulRows, hrow, val_cons, hi, Nat.mul_add]
      have : val a * (2 ^ 64 * val bs) = 2 ^ 64 * (val a * val bs) := by ring
      omega

theorem mulRows_length (cap : Cap) (a bs ws : Value) :
    (mulRows cap a bs ws).length = ws.length := by
  induction bs generalizing ws with
  | nil => rfl
  | cons b bs ih =>
    have hlen := mulRow_length cap b a 0#64 ws
    cases hrow : mulRow cap b a 0#64 ws with
    | nil => rw [hrow] at hlen; simp only [mulRows, hrow]; exact hlen
    | cons w ws' => rw [hrow] at hlen; simp only [mulRows, hrow, List.length_cons, ih]; exact hlen

theorem limb_replicate_zero (m i : Nat) : limb (List.replicate m 0#64) i = 0 := by
  by_cases h : i < m
  · simp [limb, h]
  · exact limb_of_le (by simpa using h)

/-- R191, R194: the rows give the exact product. -/
theorem val_fullProduct (cap : Cap) {n : Nat} {a b : Value} (ha : a.length = n)
    (hb : b.length = n) : val (fullProduct cap n a b) = val a * val b := by
  rw [fullProduct, val_mulRows cap a b _ (by simp [ha, hb]; omega)
    fun i _ => limb_replicate_zero _ i]
  simp

theorem fullProduct_length (cap : Cap) (n : Nat) (a b : Value) :
    (fullProduct cap n a b).length = 2 * n := by
  simp [fullProduct, mulRows_length]

theorem mulRow_take (cap : Cap) (bj : Limb) (as : Value) (c : Limb) (ws : Value) (m : Nat) :
    mulRow cap bj as c (ws.take m) = (mulRow cap bj as c ws).take m := by
  induction as generalizing c ws m with
  | nil => cases ws <;> cases m <;> simp [mulRow]
  | cons a as ih => cases ws <;> cases m <;> simp [mulRow, ih]

theorem mulRows_take (cap : Cap) (a bs ws : Value) (m : Nat) :
    mulRows cap a bs (ws.take m) = (mulRows cap a bs ws).take m := by
  induction bs generalizing ws m with
  | nil => rfl
  | cons b bs ih =>
    simp only [mulRows, mulRow_take]
    cases mulRow cap b a 0#64 ws <;> cases m <;> simp [ih]

end Sys2Proof.Machine
end

