-- ==== Sys2Proof/Laws/Shift.lean ====
section
/-! SUPPORT. The limb algorithms of R174 and R175 meet the contracts of SHL and LSR (44_shift.md R171, R172),
bit by bit. -/

namespace Sys2Proof.Machine

/-- R173: `s = 64·w + t` with `t <= 63`. -/
theorem amount_split (s : Nat) : 64 * wholeLimbs s + limbRemainder s = s := Nat.div_add_mod s 64

theorem limbRemainder_lt (s : Nat) : limbRemainder s < 64 := Nat.mod_lt _ (by decide)

theorem getLsbD_shl64 (v : Limb) (t q : Nat) (hq : q < 64) :
    (shl64 v t).getLsbD q = (decide (t ≤ q) && v.getLsbD (q - t)) := by
  rw [← BitVec.testBit_toNat, shl64_toNat, Nat.testBit_mod_two_pow, Nat.testBit_mul_two_pow,
    ← BitVec.testBit_toNat]
  simp [hq]

theorem getLsbD_shr64 (v : Limb) (t q : Nat) : (shr64 v t).getLsbD q = v.getLsbD (q + t) := by
  rw [← BitVec.testBit_toNat, shr64_toNat, Nat.testBit_div_two_pow, BitVec.testBit_toNat]

theorem limb_map_range (n : Nat) (f : Nat → Limb) (i : Nat) :
    limb ((List.range n).map f) i = if i < n then f i else 0 := by
  by_cases h : i < n
  · simp [limb, h]
  · rw [limb_of_le (by simpa using h), if_neg h]

theorem getLsbD_shlLimb (a : Value) {s w t : Nat} (hs : 64 * w + t = s) (ht : t < 64) (j q : Nat)
    (hq : q < 64) : (shlLimb a w t j).getLsbD q =
      (decide (s ≤ 64 * j + q) && (val a).testBit (64 * j + q - s)) := by
  rw [testBit_val, shlLimb]
  split
  · rename_i hj
    have : ¬ s ≤ 64 * j + q := by omega
    simp [this]
  rename_i hj
  by_cases hqt : t ≤ q
  · have e1 : (64 * j + q - s) / 64 = j - w := by omega
    have e2 : (64 * j + q - s) % 64 = q - t := by omega
    have e3 : s ≤ 64 * j + q := by omega
    rw [e1, e2]
    split
    · rw [BitVec.getLsbD_or, getLsbD_shl64 _ _ _ hq, getLsbD_shr64,
        BitVec.getLsbD_of_ge _ (q + (64 - t)) (by omega)]
      simp [hqt, e3]
    · rw [getLsbD_shl64 _ _ _ hq]
      simp [hqt, e3]
  · split
    · rename_i hw
      have e1 : (64 * j + q - s) / 64 = j - w - 1 := by omega
      have e2 : (64 * j + q - s) % 64 = q + (64 - t) := by omega
      have e3 : s ≤ 64 * j + q := by omega
      rw [BitVec.getLsbD_or, getLsbD_shl64 _ _ _ hq, getLsbD_shr64, e1, e2]
      simp [hqt, e3]
    · have e3 : ¬ s ≤ 64 * j + q := by omega
      rw [getLsbD_shl64 _ _ _ hq]
      simp [hqt, e3]

/-- R171: the contract of SHL. -/
theorem val_shlLimbs (n : Nat) (a : Value) (s : Nat) :
    val (shlLimbs n a s) = if s < 64 * n then val a * 2 ^ s % 2 ^ (64 * n) else 0 := by
  rw [shlLimbs]
  split
  · rename_i h
    rw [if_neg (by omega)]
    exact val_replicate_zero n
  · rename_i h
    rw [if_pos (by omega)]
    apply Nat.eq_of_testBit_eq
    intro k
    have hq : k % 64 < 64 := Nat.mod_lt _ (by decide)
    rw [testBit_val, limb_map_range, Nat.testBit_mod_two_pow, Nat.testBit_mul_two_pow]
    by_cases hk : k / 64 < n
    · have hk' : k < 64 * n := by omega
      rw [if_pos hk, getLsbD_shlLimb _ (amount_split s) (limbRemainder_lt s) _ _ hq,
        Nat.div_add_mod]
      simp [hk']
    · have hk' : ¬ k < 64 * n := by omega
      simp [hk, hk']

theorem shlLimbs_length (n : Nat) (a : Value) (s : Nat) : (shlLimbs n a s).length = n := by
  rw [shlLimbs]
  split <;> simp

theorem getLsbD_lsrLimb {n : Nat} {a : Value} (ha : a.length = n) {s w t : Nat}
    (hs : 64 * w + t = s) (ht : t < 64) (j q : Nat) (hq : q < 64) :
    (lsrLimb n a w t j).getLsbD q = (val a).testBit (64 * j + q + s) := by
  rw [testBit_val, lsrLimb]
  split
  · rename_i h
    rw [limb_of_le (by omega)]
    simp
  by_cases hqt : q + t < 64
  · have e1 : (64 * j + q + s) / 64 = j + w := by omega
    have e2 : (64 * j + q + s) % 64 = q + t := by omega
    rw [e1, e2]
    split
    · have : ¬ 64 - t ≤ q := by omega
      rw [BitVec.getLsbD_or, getLsbD_shl64 _ _ _ hq, getLsbD_shr64]
      simp [this]
    · rw [getLsbD_shr64]
  · have e1 : (64 * j + q + s) / 64 = j + w + 1 := by omega
    have e2 : (64 * j + q + s) % 64 = q - (64 - t) := by omega
    rw [e1, e2]
    split
    · have : 64 - t ≤ q := by omega
      rw [BitVec.getLsbD_or, getLsbD_shl64 _ _ _ hq, getLsbD_shr64,
        BitVec.getLsbD_of_ge _ (q + t) (by omega)]
      simp [this]
    · rw [getLsbD_shr64, BitVec.getLsbD_of_ge _ (q + t) (by omega), limb_of_le (by omega)]
      simp

/-- R172: the contract of LSR. -/
theorem val_lsrLimbs {n : Nat} {a : Value} (ha : a.length = n) (s : Nat) :
    val (lsrLimbs n a s) = if s < 64 * n then val a / 2 ^ s else 0 := by
  rw [lsrLimbs]
  split
  · rename_i h
    rw [if_neg (by omega)]
    exact val_replicate_zero n
  · rename_i h
    rw [if_pos (by omega)]
    apply Nat.eq_of_testBit_eq
    intro k
    have hq : k % 64 < 64 := Nat.mod_lt _ (by decide)
    rw [testBit_val, limb_map_range, Nat.testBit_div_two_pow]
    by_cases hk : k / 64 < n
    · rw [if_pos hk, getLsbD_lsrLimb ha (amount_split s) (limbRemainder_lt s) _ _ hq,
        Nat.div_add_mod]
    · rw [if_neg hk, testBit_val, limb_of_le (i := (k + s) / 64) (by omega)]
      simp

theorem lsrLimbs_length (n : Nat) (a : Value) (s : Nat) : (lsrLimbs n a s).length = n := by
  rw [lsrLimbs]
  split <;> simp

end Sys2Proof.Machine
end

