-- ==== Sys2Proof/Laws/Exec.lean ====
section
/-! SUPPORT. What an instruction can do, said once: it answers one result and flag, which depend on the
instruction and the configuration alone. Later proofs cite these lemmas and unfold no meaning. -/

namespace Sys2Proof.Machine

/-- The result limbs and the flag of an instruction in a block of `n` limbs. -/
def result (cap : Cap) (n : Nat) : Instr → Value × Bool
  | .mulfull o =>
    ([(mulFull cap (operandX o) (operandY o)).1, (mulFull cap (operandX o) (operandY o)).2], false)
  | .add o => addChain false o.a o.b
  | .sub o => subChain false o.a o.b
  | .not o => (o.a.map (fun x => ~~~x), false)
  | .and o => (List.zipWith (fun x y => x &&& y) o.a o.b, false)
  | .or o => (List.zipWith (fun x y => x ||| y) o.a o.b, false)
  | .xor o => (List.zipWith (fun x y => x ^^^ y) o.a o.b, false)
  | .clz o => ([BitVec.ofNat 64 (clz o.a)], false)
  | .shl o => (shlLimbs n o.a (amount o), false)
  | .lsr o => (lsrLimbs n o.a (amount o), false)
  | .mul o => ((fullProduct cap n o.a o.b).take n, false)
  | .mulx o => (fullProduct cap n o.a o.b, false)

/-- All an instruction can do. -/
theorem exec_eq_answer (i : Instr) (s : State) :
    exec i s = answer s i.operands (result s.cfg.cap s.cfg.limbs i).1
      (result s.cfg.cap s.cfg.limbs i).2 := by
  cases i <;> rfl

theorem exec_of_wf {i : Instr} {s : State} (h : i.wf s.cfg.limbs = true) :
    exec i s = .next (s.deliver ⟨extend s.cfg.limbs (result s.cfg.cap s.cfg.limbs i).1,
      (result s.cfg.cap s.cfg.limbs i).2⟩) := by
  rw [exec_eq_answer, answer_of_wf h]

theorem exec_of_not_wf {i : Instr} {s : State} (h : i.wf s.cfg.limbs = false) :
    exec i s = .refused .limbCount := by
  rw [exec_eq_answer, answer_of_not_wf h]

theorem exec_eq_next {i : Instr} {s t : State} (h : exec i s = .next t) :
    i.wf s.cfg.limbs = true ∧ t = s.deliver ⟨extend s.cfg.limbs
      (result s.cfg.cap s.cfg.limbs i).1, (result s.cfg.cap s.cfg.limbs i).2⟩ := by
  rw [exec_eq_answer] at h
  exact answer_eq_next h

/-- The number of limbs of a result. -/
def resultLimbs (n : Nat) : Mnemonic → Nat
  | .mulfull => 2
  | .clz => 1
  | .mulx => 2 * n
  | .add | .sub | .not | .and | .or | .xor | .shl | .lsr | .mul => n

theorem result_length {cap : Cap} {n : Nat} {i : Instr} (h : i.wf n = true) :
    (result cap n i).1.length = resultLimbs n i.mnemonic := by
  obtain ⟨ha, hb⟩ := wf_iff.mp h
  cases i with
  | mulfull o => rfl
  | add o => exact (addChain_spec false o.a o.b (ha.trans hb.symm)).1.trans ha
  | sub o => exact (subChain_spec false o.a o.b (ha.trans hb.symm)).1.trans ha
  | not o => exact List.length_map _ |>.trans ha
  | and o => simp_all [result, resultLimbs, Instr.mnemonic, Instr.operands]
  | or o => simp_all [result, resultLimbs, Instr.mnemonic, Instr.operands]
  | xor o => simp_all [result, resultLimbs, Instr.mnemonic, Instr.operands]
  | clz o => rfl
  | shl o => exact shlLimbs_length n o.a _
  | lsr o => exact lsrLimbs_length n o.a _
  | mul o =>
    have := fullProduct_length cap n o.a o.b
    simp [result, resultLimbs, Instr.mnemonic, this]
    omega
  | mulx o => exact fullProduct_length cap n o.a o.b

theorem resultLimbs_le {n : Nat} (hn : 0 < n) (m : Mnemonic) : resultLimbs n m ≤ 2 * n := by
  cases m <;> simp only [resultLimbs] <;> omega

theorem result_length_le {cap : Cap} {n : Nat} {i : Instr} (hn : 0 < n) (h : i.wf n = true) :
    (result cap n i).1.length ≤ 2 * n := by
  rw [result_length h]
  exact resultLimbs_le hn _

/-- A block refuses a command exactly when the host must not issue it (R258). -/
theorem cmdRefusal_eq_none {n : Nat} {c : Cmd} : cmdRefusal n c = none ↔ acceptable n c = true := by
  cases h : Mnemonic.ofCode c.op <;> cases hw : c.wf n <;> simp [cmdRefusal, decodeCmd, acceptable, h, hw]

theorem pendingRefusal_eq_none {s : State} :
    s.pendingRefusal = none ↔ ∀ c ∈ s.pending, acceptable s.cfg.limbs c = true := by
  simp [State.pendingRefusal, List.findSome?_eq_none_iff, cmdRefusal_eq_none]

/-- A state with a refused command pending lets nothing go on. -/
theorem guardPending_of_not_acceptable {s : State} {c : Cmd} (hc : c ∈ s.pending)
    (h : acceptable s.cfg.limbs c = false) :
    ∃ e, ∀ k, guardPending s k = .refused e := by
  cases hr : s.pendingRefusal with
  | none => rw [pendingRefusal_eq_none.mp hr c hc] at h; cases h
  | some e => exact ⟨e, guardPending_of_some hr⟩

/-- A step with a command pending, and none refused behind it, decodes and executes it. -/
theorem step_cons {s : State} {c : Cmd} {rest : List Cmd} (h : s.pending = c :: rest)
    (hr : ∀ d ∈ rest, acceptable s.cfg.limbs d = true) :
    step s = match decodeCmd c with
      | .ok i => exec i { s with pending := rest }
      | .error e => refuse e := by
  have hrest : rest.findSome? (cmdRefusal s.cfg.limbs) = none :=
    List.findSome?_eq_none_iff.mpr fun d hd => cmdRefusal_eq_none.mpr (hr d hd)
  cases hd : decodeCmd c with
  | error e => simp [step, guardPending, State.pendingRefusal, h, cmdRefusal, hd, refuse]
  | ok i =>
    have hi : i.wf s.cfg.limbs = c.wf s.cfg.limbs := by
      simp only [decodeCmd] at hd
      cases hm : Mnemonic.ofCode c.op with
      | none => rw [hm] at hd; cases hd
      | some m => rw [hm] at hd; cases hd; cases m <;> rfl
    cases hw : c.wf s.cfg.limbs with
    | true =>
      simp [step, take_cons h, guardPending, State.pendingRefusal, h, cmdRefusal, hd, hw, hrest]
    | false =>
      simp only [step, guardPending, State.pendingRefusal, h, List.findSome?_cons, cmdRefusal, hd, hw,
        Bool.false_eq_true, if_false]
      exact (exec_of_not_wf (s := { s with pending := rest }) (hi.trans hw)).symm

end Sys2Proof.Machine
end

