-- ==== Sys2Proof/Laws/HostPort.lean ====
section
/-! SUPPORT. What a step, a run and `exec_N` do, in terms of the decoded command, so that no later proof
unfolds `step`. -/

namespace Sys2Proof.Machine

theorem refuse_ne_next (e : Reject) (t : State) : refuse e ≠ .next t := by
  cases e
  simp [refuse]

/-- A command the host may issue decodes to an instruction of the block. -/
theorem decodeCmd_of_acceptable {n : Nat} {c : Cmd} (h : acceptable n c = true) :
    ∃ i, decodeCmd c = .ok i ∧ i.wf n = true := by
  simp only [acceptable, Bool.and_eq_true] at h
  obtain ⟨m, hm⟩ := Option.isSome_iff_exists.mp h.2
  refine ⟨_, by rw [decodeCmd, hm], ?_⟩
  cases m <;> exact h.1

/-- All a step that answers can do: nothing, or deliver the one response of the oldest command; and no
refused command was pending. -/
theorem step_eq_next {s t : State} (h : step s = .next t) :
    (∀ c ∈ s.pending, acceptable s.cfg.limbs c = true) ∧
    ((s.pending = [] ∧ t = s) ∨
    ∃ c rest i, s.pending = c :: rest ∧ decodeCmd c = .ok i ∧ i.wf s.cfg.limbs = true ∧
      t = ({ s with pending := rest } : State).deliver
        ⟨extend s.cfg.limbs (result s.cfg.cap s.cfg.limbs i).1,
          (result s.cfg.cap s.cfg.limbs i).2⟩) := by
  obtain ⟨hn, hk⟩ := guardPending_eq_next h
  have ha := pendingRefusal_eq_none.mp hn
  refine ⟨ha, ?_⟩
  cases hp : s.pending with
  | nil =>
    refine .inl ⟨rfl, ?_⟩
    simp only [take_nil hp, idle, Host.Outcome.next.injEq] at hk
    exact hk.symm
  | cons c rest =>
    rw [step_cons hp fun d hd => ha d (by simp [hp, hd])] at h
    cases hd : decodeCmd c with
    | error e => rw [hd] at h; exact absurd h (refuse_ne_next e t)
    | ok i =>
      rw [hd] at h
      obtain ⟨hw, ht⟩ := exec_eq_next h
      exact .inr ⟨c, rest, i, rfl, hd, hw, ht⟩

/-- `exec_N` of a command of the block. -/
theorem execN_of_wf {cfg : Config} {c : Cmd} {i : Instr} (hd : decodeCmd c = .ok i)
    (hw : i.wf cfg.limbs = true) :
    execN cfg c = some ⟨extend cfg.limbs (result cfg.cap cfg.limbs i).1,
      (result cfg.cap cfg.limbs i).2⟩ := by
  have hp : ((State.resetFor cfg).issue c).pending = [c] := rfl
  rw [execN, step_cons hp (by simp), hd]
  simp only
  rw [exec_of_wf (s := { (State.resetFor cfg).issue c with pending := [] }) hw]
  rfl

/-- A run of one step more. -/
theorem run_succ (M : Host.Core) (k : Nat) (s : M.State) :
    M.run (k + 1) s = match M.step s with
      | .next s' => M.run k s'
      | .fault r => .fault r
      | .refused r => .refused r := by
  cases h : M.step s <;> simp only [Host.Core.run, h]

end Sys2Proof.Machine
end

