-- ==== Sys2Proof/Laws/PerInstr.lean ====
section
/-! SUPPORT. One lemma per instruction: the record decoder reads back the command record of the
instruction, every operand kept (30_encoding.md R61), and the record has the instruction's limb count. -/

namespace Sys2Proof.Laws.RecordRoundTrip

/-- Decoding the command record of `i` gives `i`, and the record is well formed exactly as `i` is. -/
def Statement (i : Instr) : Prop :=
  decodeCmd (encodeCmd i) = .ok i ∧ ∀ n, (encodeCmd i).wf n = i.wf n

theorem mulfull (o : Operands) : Statement (.mulfull o) := ⟨rfl, fun _ => rfl⟩
theorem add (o : Operands) : Statement (.add o) := ⟨rfl, fun _ => rfl⟩
theorem sub (o : Operands) : Statement (.sub o) := ⟨rfl, fun _ => rfl⟩
theorem not (o : Operands) : Statement (.not o) := ⟨rfl, fun _ => rfl⟩
theorem and (o : Operands) : Statement (.and o) := ⟨rfl, fun _ => rfl⟩
theorem or (o : Operands) : Statement (.or o) := ⟨rfl, fun _ => rfl⟩
theorem xor (o : Operands) : Statement (.xor o) := ⟨rfl, fun _ => rfl⟩
theorem clz (o : Operands) : Statement (.clz o) := ⟨rfl, fun _ => rfl⟩
theorem shl (o : Operands) : Statement (.shl o) := ⟨rfl, fun _ => rfl⟩
theorem lsr (o : Operands) : Statement (.lsr o) := ⟨rfl, fun _ => rfl⟩
theorem mul (o : Operands) : Statement (.mul o) := ⟨rfl, fun _ => rfl⟩
theorem mulx (o : Operands) : Statement (.mulx o) := ⟨rfl, fun _ => rfl⟩

end Sys2Proof.Laws.RecordRoundTrip
end

