-- ==== Sys2Proof/Tests/Slice0.lean ====
section
/-! SUPPORT. The model's own tests: what the well-formedness check refuses, the decoding of words written
out from 30_encoding.md R60 and R61, one step of each instruction on vectors of 95_test_vectors.md, and
for each statement with hypotheses a state and operands that meet them. -/

namespace Sys2Proof.Tests

open Sys2Proof.Machine

/-- A block of two limbs, four limbs or one, by the build of unit U1. -/
def native2 : Config := Config.atReset
def generic2 : Config := ⟨2, .generic, by decide, by decide⟩
def native4 : Config := ⟨4, .native, by decide, by decide⟩
def native1 : Config := ⟨1, .native, by decide, by decide⟩

/-- The next state of an outcome, and its refusal, as plain data. -/
def nextOf : Host.Outcome State Fault Refusal → Option State
  | .next s => some s
  | .fault _ => none
  | .refused _ => none

def refusalOf : Host.Outcome State Fault Refusal → Option Refusal
  | .next _ => none
  | .fault _ => none
  | .refused e => some e

theorem next_of_nextOf {x : Host.Outcome State Fault Refusal} {t : State} (h : nextOf x = some t) :
    x = .next t := by
  cases x <;> simp_all [nextOf]

theorem refused_of_refusalOf {x : Host.Outcome State Fault Refusal} {e : Refusal}
    (h : refusalOf x = some e) : x = .refused e := by
  cases x <;> simp_all [refusalOf]

/-! ### Well-formedness refuses an ill-formed term for each check -/

theorem test_wf_accepts : (Instr.add ⟨[1, 2], [3, 4], 0⟩).wf 2 = true := by decide
theorem test_wf_refuses_short_a : (Instr.add ⟨[1], [3, 4], 0⟩).wf 2 = false := by decide
theorem test_wf_refuses_long_a : (Instr.not ⟨[1, 2, 3], [3, 4], 0⟩).wf 2 = false := by decide
theorem test_wf_refuses_short_b : (Instr.add ⟨[1, 2], [3], 0⟩).wf 2 = false := by decide
theorem test_wf_refuses_ignored_b : (Instr.clz ⟨[1, 2], [], 0⟩).wf 2 = false := by decide
theorem test_cmd_wf_refuses : (Cmd.mk 0x1 [1, 2] [3] 0).wf 2 = false := by decide
theorem test_rsp_wf_refuses : (Rsp.mk [1, 2] false).wf 2 = false := by decide

/-! ### Decoding

The digits of a word are, from the top: 32 of `b`, 32 of `a`, 16 of `sh` and one of `op` (R60 for
`N = 2`). The numbers of the codes are those of R61. -/

/-- The operands the words stand for. -/
def ops : Operands :=
  ⟨[0xfedcba9876543210, 0x0123456789abcdef], [0xdeadbeefcafebabe, 0x0badf00dfeedface], 0x41⟩

theorem test_decode_mulfull : decodeTableWord 324
    0x0badf00dfeedfacedeadbeefcafebabe0123456789abcdeffedcba987654321000000000000000410 = some (.mulfull ops) := by decide

theorem test_decode_add : decodeTableWord 324
    0x0badf00dfeedfacedeadbeefcafebabe0123456789abcdeffedcba987654321000000000000000411 = some (.add ops) := by decide

theorem test_decode_sub : decodeTableWord 324
    0x0badf00dfeedfacedeadbeefcafebabe0123456789abcdeffedcba987654321000000000000000412 = some (.sub ops) := by decide

theorem test_decode_not : decodeTableWord 324
    0x0badf00dfeedfacedeadbeefcafebabe0123456789abcdeffedcba987654321000000000000000413 = some (.not ops) := by decide

theorem test_decode_and : decodeTableWord 324
    0x0badf00dfeedfacedeadbeefcafebabe0123456789abcdeffedcba987654321000000000000000414 = some (.and ops) := by decide

theorem test_decode_or : decodeTableWord 324
    0x0badf00dfeedfacedeadbeefcafebabe0123456789abcdeffedcba987654321000000000000000415 = some (.or ops) := by decide

theorem test_decode_xor : decodeTableWord 324
    0x0badf00dfeedfacedeadbeefcafebabe0123456789abcdeffedcba987654321000000000000000416 = some (.xor ops) := by decide

theorem test_decode_clz : decodeTableWord 324
    0x0badf00dfeedfacedeadbeefcafebabe0123456789abcdeffedcba987654321000000000000000417 = some (.clz ops) := by decide

theorem test_decode_shl : decodeTableWord 324
    0x0badf00dfeedfacedeadbeefcafebabe0123456789abcdeffedcba987654321000000000000000418 = some (.shl ops) := by decide

theorem test_decode_lsr : decodeTableWord 324
    0x0badf00dfeedfacedeadbeefcafebabe0123456789abcdeffedcba987654321000000000000000419 = some (.lsr ops) := by decide

theorem test_decode_mul : decodeTableWord 324
    0x0badf00dfeedfacedeadbeefcafebabe0123456789abcdeffedcba98765432100000000000000041a = some (.mul ops) := by decide

theorem test_decode_mulx : decodeTableWord 324
    0x0badf00dfeedfacedeadbeefcafebabe0123456789abcdeffedcba98765432100000000000000041b = some (.mulx ops) := by decide

theorem test_decode_reserved_c : decodeTableWord 324
    0x0badf00dfeedfacedeadbeefcafebabe0123456789abcdeffedcba98765432100000000000000041c = none := by decide

theorem test_decode_reserved_d : decodeTableWord 324
    0x0badf00dfeedfacedeadbeefcafebabe0123456789abcdeffedcba98765432100000000000000041d = none := by decide

theorem test_decode_reserved_e : decodeTableWord 324
    0x0badf00dfeedfacedeadbeefcafebabe0123456789abcdeffedcba98765432100000000000000041e = none := by decide

theorem test_decode_reserved_f : decodeTableWord 324
    0x0badf00dfeedfacedeadbeefcafebabe0123456789abcdeffedcba98765432100000000000000041f = none := by decide

/-! ### One step of each instruction -/

/-- 95_test_vectors.md M18. -/
theorem test_mulfull_native : execN native2 ⟨0x0, [0x123456789abcdef, 0x6],
      [0xfedcba9876543210, 0x6], 9⟩ =
    some ⟨[0x2236d88fe5618cf0, 0x121fa00ad77d742, 0, 0], false⟩ := by decide

/-- 95_test_vectors.md M18. -/
theorem test_mulfull_generic : execN generic2 ⟨0x0, [0x123456789abcdef, 0x6],
      [0xfedcba9876543210, 0x6], 9⟩ =
    some ⟨[0x2236d88fe5618cf0, 0x121fa00ad77d742, 0, 0], false⟩ := by decide

/-- 95_test_vectors.md AS2.2. -/
theorem test_add_carry_out : execN native2 ⟨0x1, [0xffffffffffffffff, 0xffffffffffffffff],
      [0x1, 0x0], 9⟩ =
    some ⟨[0x0, 0x0, 0, 0], true⟩ := by decide

/-- 95_test_vectors.md AS4.9. -/
theorem test_add_wrap_by_carry : execN native4 ⟨0x1, [0xfedcba9876543210, 0x123456789abcdef, 0x8796a5b4c3d2e1f0, 0xf1e2d3c4b5a6978],
      [0x8796a5b4c3d2e1f0, 0xf1e2d3c4b5a6978, 0xdeadbeefcafebabe, 0xf0e1d2c3b4a59687], 9⟩ =
    some ⟨[0x8673604d3a271400, 0x104172a3d5063768, 0x664464a48ed19cae, 0x0, 0, 0, 0, 0], true⟩ := by decide

/-- 95_test_vectors.md AS4.15. -/
theorem test_sub_borrow_ripples : execN native4 ⟨0x2, [0x0, 0x0, 0x0, 0x1],
      [0x1, 0x0, 0x0, 0x0], 9⟩ =
    some ⟨[0xffffffffffffffff, 0xffffffffffffffff, 0xffffffffffffffff, 0x0, 0, 0, 0, 0], false⟩ := by decide

/-- 95_test_vectors.md AS2.15. -/
theorem test_sub_borrow_out : execN native2 ⟨0x2, [0xaaaaaaaaaaaaaaaa, 0x5555555555555555],
      [0x5555555555555555, 0xaaaaaaaaaaaaaaaa], 9⟩ =
    some ⟨[0x5555555555555555, 0xaaaaaaaaaaaaaaab, 0, 0], true⟩ := by decide

/-- 95_test_vectors.md BW2.1. -/
theorem test_not_upper_half_zero : execN native2 ⟨0x3, [0x0, 0x0],
      [0x5, 0x6], 9⟩ =
    some ⟨[0xffffffffffffffff, 0xffffffffffffffff, 0, 0], false⟩ := by decide

/-- 95_test_vectors.md BW4.3. -/
theorem test_not_limbs : execN native4 ⟨0x3, [0xffffffff00000000, 0xf0f0f0f0f0f0f0f, 0x123456789abcdef, 0x8000000000000001],
      [0x5, 0x6, 0x7, 0x8], 9⟩ =
    some ⟨[0xffffffff, 0xf0f0f0f0f0f0f0f0, 0xfedcba9876543210, 0x7ffffffffffffffe, 0, 0, 0, 0], false⟩ := by decide

/-- 95_test_vectors.md BW4.4. -/
theorem test_and_limbs : execN native4 ⟨0x4, [0xffffffff00000000, 0xf0f0f0f0f0f0f0f, 0x123456789abcdef, 0x8000000000000001],
      [0xaaaaaaaaaaaaaaaa, 0xffffffffffffffff, 0xff00ff00ff00ff00, 0x7fffffffffffffff], 9⟩ =
    some ⟨[0xaaaaaaaa00000000, 0xf0f0f0f0f0f0f0f, 0x10045008900cd00, 0x1, 0, 0, 0, 0], false⟩ := by decide

/-- 95_test_vectors.md BW4.5. -/
theorem test_or_limbs : execN native4 ⟨0x5, [0xffffffff00000000, 0xf0f0f0f0f0f0f0f, 0x123456789abcdef, 0x8000000000000001],
      [0xaaaaaaaaaaaaaaaa, 0xffffffffffffffff, 0xff00ff00ff00ff00, 0x7fffffffffffffff], 9⟩ =
    some ⟨[0xffffffffaaaaaaaa, 0xffffffffffffffff, 0xff23ff67ffabffef, 0xffffffffffffffff, 0, 0, 0, 0], false⟩ := by decide

/-- 95_test_vectors.md BW4.6. -/
theorem test_xor_limbs : execN native4 ⟨0x6, [0xffffffff00000000, 0xf0f0f0f0f0f0f0f, 0x123456789abcdef, 0x8000000000000001],
      [0xaaaaaaaaaaaaaaaa, 0xffffffffffffffff, 0xff00ff00ff00ff00, 0x7fffffffffffffff], 9⟩ =
    some ⟨[0x55555555aaaaaaaa, 0xf0f0f0f0f0f0f0f0, 0xfe23ba6776ab32ef, 0xfffffffffffffffe, 0, 0, 0, 0], false⟩ := by decide

/-- 95_test_vectors.md CZ2.1. -/
theorem test_clz_zero : execN native2 ⟨0x7, [0x0, 0x0],
      [0x5, 0x6], 9⟩ =
    some ⟨[128, 0, 0, 0], false⟩ := by decide

/-- 95_test_vectors.md CZ4.13. -/
theorem test_clz_lower_limbs_ignored : execN native4 ⟨0x7, [0xffffffffffffffff, 0x0, 0x0, 0xffffffff],
      [0x5, 0x6, 0x7, 0x8], 9⟩ =
    some ⟨[32, 0, 0, 0, 0, 0, 0, 0], false⟩ := by decide

/-- 95_test_vectors.md SH4.6. -/
theorem test_shl_crosses_limbs : execN native4 ⟨0x8, [0x8000000000000001, 0xf00000000000000f, 0x123456789abcdef, 0x8000000000000001],
      [0x5, 0x6, 0x7, 0x8], 65⟩ =
    some ⟨[0x0, 0x2, 0xe00000000000001f, 0x2468acf13579bdf, 0, 0, 0, 0], false⟩ := by decide

/-- 95_test_vectors.md SH2.10. -/
theorem test_shl_amount_not_masked : execN native2 ⟨0x8, [0x8000000000000001, 0xf00000000000000f],
      [0x5, 0x6], 0x100000000⟩ =
    some ⟨[0x0, 0x0, 0, 0], false⟩ := by decide

/-- 95_test_vectors.md SH4.16. -/
theorem test_lsr_crosses_limbs : execN native4 ⟨0x9, [0x8000000000000001, 0xf00000000000000f, 0x123456789abcdef, 0x8000000000000001],
      [0x5, 0x6, 0x7, 0x8], 63⟩ =
    some ⟨[0xe00000000000001f, 0x2468acf13579bdf, 0x2, 0x1, 0, 0, 0, 0], false⟩ := by decide

/-- 95_test_vectors.md SH2.16. -/
theorem test_lsr_whole_limb : execN native2 ⟨0x9, [0x8000000000000001, 0xf00000000000000f],
      [0x5, 0x6], 64⟩ =
    some ⟨[0xf00000000000000f, 0x0, 0, 0], false⟩ := by decide

/-- 95_test_vectors.md MU2.12. -/
theorem test_mul_truncates : execN generic2 ⟨0xA, [0x123456789abcdef, 0xfedcba9876543210],
      [0xdeadbeefcafebabe, 0xbadf00dfeedface], 9⟩ =
    some ⟨[0x7eb689f4ea447d62, 0x79817840910d844f, 0, 0], false⟩ := by decide

/-- 95_test_vectors.md MU2.3. -/
theorem test_mul_largest : execN native2 ⟨0xA, [0xffffffffffffffff, 0xffffffffffffffff],
      [0xffffffffffffffff, 0xffffffffffffffff], 9⟩ =
    some ⟨[0x1, 0x0, 0, 0], false⟩ := by decide

/-- 95_test_vectors.md MU2.3. -/
theorem test_mulx_largest : execN native2 ⟨0xB, [0xffffffffffffffff, 0xffffffffffffffff],
      [0xffffffffffffffff, 0xffffffffffffffff], 9⟩ =
    some ⟨[0x1, 0x0, 0xfffffffffffffffe, 0xffffffffffffffff], false⟩ := by decide

/-- 95_test_vectors.md MU2.12. -/
theorem test_mulx_generic : execN generic2 ⟨0xB, [0x123456789abcdef, 0xfedcba9876543210],
      [0xdeadbeefcafebabe, 0xbadf00dfeedface], 9⟩ =
    some ⟨[0x7eb689f4ea447d62, 0x79817840910d844f, 0xfc27579f00a01367, 0xba0a62b840deae6], false⟩ := by decide

/-- 95_test_vectors.md section 2.3, trace G2. -/
theorem test_generic_trace : genericSteps 0x0123456789abcdef 0xfedcba9876543210 =
    ⟨0x3fa27837e5618cf0, 0x0086a1c9358e7470, 0x890f2a50ad05ebe8, 0x0121fa0023e20b28,
      0x0086a1c97530eca7, 0x890f2a512236d88f, 0x2236d88fe5618cf0, 0x0121fa00ad77d742⟩ := by decide

/-- 30_encoding.md R64: a reserved code is refused by the machine. -/
theorem test_reserved_refused : refusalOf (step (State.reset.issue ⟨0xC, [1, 2], [3, 4], 5⟩)) =
    some (.reservedOp 0xC) := by decide

/-- Log entry 6: the first step after reset runs the word placed: `MAX + 1` (AS2.2). -/
theorem test_fetch_word_runs : (nextOf (step (State.reset.withFetchWord 324
    0x00000000000000000000000000000001ffffffffffffffffffffffffffffffff00000000000000001))).map
      State.responses = some [⟨[0, 0, 0, 0], true⟩] := by decide

/-- 30_encoding.md R63: `cout` is bit 0 and limb 0 begins at bit 1. -/
theorem test_response_vector : (packRsp 1 ⟨[0x8000000000000001, 0x2], true⟩).toNat =
    0x50000000000000003 := by decide

/-- 70_reset_and_hazards.md R250: the pending command is dropped, the delivered response stays. -/
theorem test_reset_drops :
    nextOf (State.mk native1 [⟨0x1, [1], [2], 0⟩] [⟨[7, 0], false⟩]).applyReset =
    some ⟨native1, [], [⟨[7, 0], false⟩]⟩ := by decide

/-- 30_encoding.md R64: a reserved command behind another refuses the step and the reset, and the run
that issues it. -/
theorem test_reserved_behind :
    refusalOf (step (State.mk native1 [⟨0x1, [1], [2], 0⟩, ⟨0xD, [1], [2], 0⟩] [])) =
      some (.reservedOp 0xD) ∧
    refusalOf (State.mk native1 [⟨0x1, [1], [2], 0⟩, ⟨0xD, [1], [2], 0⟩] []).applyReset =
      some (.reservedOp 0xD) ∧
    refusalOf (runEvents [.issue ⟨0xD, [1], [2], 0⟩, .reset] (State.resetFor native1)) =
      some (.reservedOp 0xD) := by decide

/-- 30_encoding.md R67: `s, c = ADD x, 0x1` with `x = MAX`, for `N = 1`. -/
theorem test_transcript_line : runLine native1 ⟨[("x", [0xffffffffffffffff])], []⟩
    ⟨"s", some "c", .add, .name "x", some (.number 1)⟩ =
    some ⟨[("s", [0]), ("x", [0xffffffffffffffff])], [("c", true)]⟩ := by decide

/-! ### Witnesses: the hypotheses of each statement can be met -/

/-- A block of two limbs with an ADD pending and one response delivered. -/
def busy : State := ⟨native2, [⟨0x1, [1, 2], [3, 4], 0⟩], [⟨[7, 0, 0, 0], false⟩]⟩

/-- The block after the ADD of `busy`. -/
def busyAfter : State := ⟨native2, [], [⟨[7, 0, 0, 0], false⟩, ⟨[4, 6, 0, 0], false⟩]⟩

/-- The hypothesis of the result statements of MULFULL, ADD, SUB, NOT, AND, OR, XOR, SHL, LSR, MUL and
MULX, of TruncatedRowsAreTheLowHalf and of IgnoredFieldsHaveNoEffect's first premise. -/
theorem test_witness_results : ops.wf busy.cfg.limbs = true := by decide

theorem test_witness_EveryInstructionAgreesWithTheReference :
    (Instr.clz ops).wf busy.cfg.limbs = true := by decide

theorem test_witness_clz_zero : (Operands.mk [0, 0] [3, 4] 0).wf busy.cfg.limbs = true ∧
    val [0, 0] = 0 := by decide
theorem test_witness_clz_lowest : (Operands.mk [1, 0] [3, 4] 0).wf busy.cfg.limbs = true ∧
    2 ^ 0 ≤ val [1, 0] ∧ val [1, 0] < 2 ^ (0 + 1) := by decide
theorem test_witness_clz_highest : (Operands.mk [0, 0x8000000000000000] [3, 4] 0).wf 2 = true ∧
    2 ^ 127 ≤ val [0, 0x8000000000000000] ∧ val [0, 0x8000000000000000] < 2 ^ (127 + 1) := by decide
theorem test_witness_shift_below_width : (Operands.mk [1, 2] [3, 4] 127).wf busy.cfg.limbs = true ∧
    (127 : BitVec 64).toNat < busy.cfg.width := by decide
theorem test_witness_shift_at_width : (Operands.mk [1, 2] [3, 4] 128).wf busy.cfg.limbs = true ∧
    ¬ (128 : BitVec 64).toNat < busy.cfg.width := by decide

theorem test_witness_ExecAddsOneResponseOfItsShape :
    (∃ t, exec (.not ops) busy = .next t) ∧ (∃ t, exec (.mulfull ops) busy = .next t) ∧
    (∃ t, exec (.clz ops) busy = .next t) ∧ (Instr.not ops).mnemonic ≠ .add ∧
    (Instr.not ops).mnemonic ≠ .sub ∧ (Instr.not ops).mnemonic ≠ .mulfull ∧
    (Instr.not ops).mnemonic ≠ .mulx ∧ (Instr.mulfull ops).mnemonic = .mulfull ∧
    (Instr.clz ops).mnemonic = .clz :=
  ⟨⟨_, rfl⟩, ⟨_, rfl⟩, ⟨_, rfl⟩, by decide⟩

theorem test_witness_busy_step : step busy = .next busyAfter := next_of_nextOf (by decide)

theorem test_witness_StepTakesOneAndDeliversOne :
    step busy = .next busyAfter ∧ step State.reset = .next State.reset :=
  ⟨test_witness_busy_step, next_of_nextOf (by decide)⟩

theorem test_witness_OtherLimbCountIsRefused :
    (Instr.add ⟨[1], [3, 4], 0⟩).wf busy.cfg.limbs = false := by decide

theorem test_witness_CommandVectorFieldPositions : 0 < 2 ∧ 1 < 2 := by decide

theorem test_witness_ResponseVectorRoundTrip :
    (Rsp.mk [1, 2, 3, 4] true).wf 2 = true ∧ 0 < 2 * 2 ∧ 3 < 2 * 2 := by decide

theorem test_witness_DecodeOfEncode : (Instr.mulx ops).wf 2 = true := by decide

theorem test_witness_EncodeOfDecode : decode 2 (0x7 : BitVec (cmdBits 2)) =
    .ok (.clz ⟨[0, 0], [0, 0], 0⟩) := by rfl

/-- The nearest accepted and refused codes, as a vector and as a pending command. -/
theorem test_witness_ReservedCodesAreRefused :
    0xC ≤ ((0xC : BitVec (cmdBits 2)).extractLsb' 0 4).toNat ∧
    ((0xB : BitVec (cmdBits 2)).extractLsb' 0 4).toNat < 0xC ∧
    (State.reset.issue ⟨0xC, [1, 2], [3, 4], 5⟩).pending = ⟨0xC, [1, 2], [3, 4], 5⟩ :: [] ∧
    0xC ≤ (0xC : BitVec 4).toNat ∧ 0xC ≤ (0xF : BitVec 4).toNat ∧
    (⟨0xF, [1, 2], [3, 4], 5⟩ : Cmd) ∈ State.reset.pending ++
      issuedCommands [.step, .issue ⟨0xF, [1, 2], [3, 4], 5⟩, .reset] := by decide

/-- With an acceptable command behind the oldest, and with a reserved one. -/
theorem test_witness_StepRunsTheDecodedInstruction :
    (busy.issue ⟨0xB, [1, 2], [3, 4], 0⟩).pending =
      ⟨0x1, [1, 2], [3, 4], 0⟩ :: ⟨0xB, [1, 2], [3, 4], 0⟩ :: [] ∧
    decodeCmd ⟨0x1, [1, 2], [3, 4], 0⟩ = .ok (.add ⟨[1, 2], [3, 4], 0⟩) ∧
    (∀ d ∈ [(⟨0xB, [1, 2], [3, 4], 0⟩ : Cmd)], acceptable busy.cfg.limbs d = true) ∧
    acceptable busy.cfg.limbs ⟨0xC, [1, 2], [3, 4], 0⟩ = false :=
  ⟨rfl, rfl, by decide, by decide⟩

theorem test_witness_StepRunsTheFetchWord :
    decode State.reset.cfg.limbs (BitVec.ofNat (cmdBits State.reset.cfg.limbs) (0x1 % 2 ^ 8)) =
    .ok (.add ⟨[0, 0], [0, 0], 0⟩) := by rfl

theorem test_witness_IdleStepChangesNothing : State.reset.pending = [] := by decide

theorem test_witness_EveryAcceptableCommandIsAnswered :
    busy.pending = ⟨0x1, [1, 2], [3, 4], 0⟩ :: [] ∧
    ∀ d ∈ busy.pending, acceptable busy.cfg.limbs d = true := by decide

theorem test_witness_StepKeepsRecordFormats : busy.inv = true ∧ step busy = .next busyAfter :=
  ⟨by decide, test_witness_busy_step⟩

theorem test_witness_ResetDropsPendingKeepsDelivered :
    (∀ d ∈ busy.pending, acceptable busy.cfg.limbs d = true) ∧
    acceptable busy.cfg.limbs ⟨0xB, [1, 2], [3, 4], 0⟩ = true ∧
    (⟨0xC, [1, 2], [3, 4], 0⟩ : Cmd) ∈ (busy.issue ⟨0xC, [1, 2], [3, 4], 0⟩).pending ∧
    acceptable busy.cfg.limbs ⟨0xC, [1, 2], [3, 4], 0⟩ = false := by decide

theorem test_witness_ResponseDependsOnCommandAndLimbCountAlone :
    busy.cfg.limbs = (State.resetFor generic2).cfg.limbs ∧ busy ≠ State.resetFor generic2 := by decide

/-- For MULFULL two operand records differ in everything it ignores, for NOT in `b` and `sh`. -/
theorem test_witness_IgnoredFieldsHaveNoEffect :
    (Operands.mk [1, 2] [3, 4] 5).wf busy.cfg.limbs = true ∧
    (Operands.mk [1, 8] [3, 9] 6).wf busy.cfg.limbs = true ∧
    agreeOnReads .mulfull ⟨[1, 2], [3, 4], 5⟩ ⟨[1, 8], [3, 9], 6⟩ = true ∧
    agreeOnReads .not ⟨[1, 2], [3, 4], 5⟩ ⟨[1, 2], [3, 9], 6⟩ = true ∧
    agreeOnReads .shl ⟨[1, 2], [3, 4], 5⟩ ⟨[1, 2], [3, 9], 5⟩ = true := by decide

theorem test_witness_CapabilityFlagIsInvisible : step busy = .next busyAfter ∧
    step (State.reset.issue ⟨0xC, [1, 2], [3, 4], 5⟩) = .refused (.reservedOp 0xC) :=
  ⟨test_witness_busy_step, refused_of_refusalOf test_reserved_refused⟩

/-- Also the hypothesis of AcceptableRunsAreSafe. -/
theorem test_witness_CommandsAnsweredOnceInOrderEachAsIfAlone :
    (∀ c ∈ busy.pending, acceptable busy.cfg.limbs c = true) ∧ busy.pending ≠ [] ∧
    native2.limbs = generic2.limbs ∧ native2 ≠ generic2 := by decide

/-- A step, an issue, a reset that drops the issued command, an issue and a step. -/
theorem test_witness_AnyScheduleDeliversInOrderOnlyOwnResponses :
    runEvents [.step, .issue ⟨0x4, [1, 2], [3, 4], 0⟩, .reset, .issue ⟨0x6, [1, 2], [3, 4], 0⟩, .step]
      busy = .next ⟨native2, [], busyAfter.responses ++ [⟨[2, 6, 0, 0], false⟩]⟩ :=
  next_of_nextOf (by decide)

theorem test_witness_TwosComplementSubtractorIsTheChain :
    ([1, 2] : Value).length = ([3, 4] : Value).length ∧ ([1, 2] : Value) ≠ [] := by decide

theorem test_witness_BitHalvingCountsLeadingZeros :
    2 ^ 0 ≤ (1 : Limb).toNat ∧ (1 : Limb).toNat < 2 ^ (0 + 1) ∧
    2 ^ 63 ≤ (0x8000000000000000 : Limb).toNat ∧ (0x8000000000000000 : Limb).toNat < 2 ^ (63 + 1) := by
  decide

/-- The lengths asked by ColumnProductIsTheRowProduct, AddSubRoundTrip, AddSubLaws, NegationLaws,
BitwiseHasNoCrossLimbInteraction, BitwiseAdderLaws, MulIsTheLowHalfOfMulx and ProductLaws, with the
bounds of a limb and of a bit. -/
theorem test_witness_lengths : ([1, 2] : Value).length = native2.limbs ∧
    ([3, 4] : Value).length = native2.limbs ∧ ([5, 6] : Value).length = native2.limbs ∧
    0 < native2.limbs ∧ 1 < native2.limbs ∧ 0 < 64 ∧ 63 < 64 := by decide

theorem test_witness_MulFullLaws :
    1 ≤ 1 ∧ 1 ≤ 63 ∧ 63 ≤ 63 ∧ 1 ≤ (1 : Limb).toNat ∧ 1 ≤ (0xffffffffffffffff : Limb).toNat := by decide

theorem test_witness_EveryBitPositionIsAddressable : 0 < native2.width ∧ 127 < native2.width := by decide

theorem test_witness_LeadingZeroLaws : ([0, 1] : Value).length = native2.limbs ∧ val [0, 1] ≠ 0 ∧
    (0 : BitVec 64).toNat < native2.width ∧ (127 : BitVec 64).toNat < native2.width := by decide

/-- The clauses at the amounts 0 and `W - 1`, each with a value that keeps all its bits. -/
theorem test_witness_ShiftRoundTrip : ([1, 0] : Value).length = native2.limbs ∧
    (0 : BitVec 64).toNat < native2.width ∧ val [1, 0] < 2 ^ (native2.width - (0 : BitVec 64).toNat) ∧
    (127 : BitVec 64).toNat < native2.width ∧
    val [1, 0] < 2 ^ (native2.width - (127 : BitVec 64).toNat) := by decide

theorem test_witness_ShiftByZeroAndOverWide : ([1, 2] : Value).length = native2.limbs ∧
    ([3, 4] : Value).length = native2.limbs ∧ native2.width ≤ (128 : BitVec 64).toNat ∧
    native2.width ≤ (0xffffffffffffffff : BitVec 64).toNat := by decide

/-- A sum below `2^64` below and at `W`, and the clause of the product at the last amount. -/
theorem test_witness_ShiftLaws : ([1, 2] : Value).length = native2.limbs ∧
    (64 : BitVec 64).toNat + (63 : BitVec 64).toNat < 2 ^ 64 ∧
    native2.width ≤ (64 : BitVec 64).toNat + (64 : BitVec 64).toNat ∧
    (127 : BitVec 64).toNat < native2.width := by decide

theorem test_witness_ScalarProductIsRepeatedAddition : ([1, 2] : Value).length = native2.limbs ∧
    0 < 2 ^ 64 ∧ 2 ^ 64 - 1 < 2 ^ 64 := by decide

/-- The clause of `N = 1`. -/
theorem test_witness_ProductLaws_one_limb : ([1] : Value).length = native1.limbs ∧
    native1.limbs = 1 := by decide

theorem test_witness_PseudoOperationsCompute : ([1, 2] : Value).length = native2.limbs ∧
    0 < 2 ^ native2.width ∧ 2 ^ 128 - 1 < 2 ^ native2.width := by decide

/-- One line of each shape: two values, one value, a value and an amount. -/
theorem test_witness_TranscriptLineNamesItsResponse :
    Line.operands 2 ⟨[], []⟩ ⟨"s", none, .add, .number 1, some (.limbs [3, 4])⟩ =
      some ⟨[1, 0], [3, 4], 0⟩ ∧
    Line.operands 2 ⟨[("x", [1, 2])], []⟩ ⟨"d", none, .not, .name "x", none⟩ =
      some ⟨[1, 2], [0, 0], 0⟩ ∧
    Line.operands 2 ⟨[("p", [1, 2, 3, 4])], []⟩ ⟨"d", none, .shl, .part "p" 2 2, some (.number 128)⟩ =
      some ⟨[3, 4], [0, 0], 128⟩ := by decide

end Sys2Proof.Tests
end

section
/-! SUPPORT and settlements of the family 00_scope.md: what a response depends on (R14), and which
bits of a number a command vector reads (R60). -/

namespace Sys2Proof

/-- A slice below bit `k` reads nothing from bit `k` up (R11). -/
theorem slice_mod_two_pow {k hi lo : Nat} (hlo : lo ≤ hi) (hk : hi < k) (v : Nat) :
    slice (v % 2 ^ k) hi lo = slice v hi lo := by
  refine Nat.eq_of_testBit_eq fun j => ?_
  simp only [slice, Nat.testBit_mod_two_pow, Nat.testBit_div_two_pow]
  by_cases hj : j < hi - lo + 1
  · simp [show j + lo < k by omega]
  · simp [hj]

/-- R60, log entry 13: a command reads the bits of its vector and no higher one. -/
theorem unpackNat_mod_cmdBits {n : Nat} (hn : 0 < n) (v : Nat) :
    unpackNat n (v % 2 ^ cmdBits n) = unpackNat n v := by
  have hlen : cmdBits n = 68 + 2 * (64 * n) := rfl
  simp only [unpackNat, Cmd.mk.injEq]
  refine ⟨?op, ?a, ?b, ?sh⟩ <;> rw [slice_mod_two_pow] <;> omega

theorem decode_ofNat {n : Nat} (hn : 0 < n) (v : Nat) :
    decode n (BitVec.ofNat (cmdBits n) v) = decodeCmd (unpackNat n v) := by
  rw [decode, unpackCmd, BitVec.toNat_ofNat, unpackNat_mod_cmdBits hn]

namespace Machine

@[simp] theorem withFetchWord_pending (s : State) (nbits w : Nat) :
    (s.withFetchWord nbits w).pending = [tableCmd s.cfg.limbs nbits w] := rfl

/-- R92: which build computes the product of two limbs does not show. -/
theorem mulFull_cap_irrelevant (cap cap' : Cap) (x y : Limb) : mulFull cap x y = mulFull cap' x y :=
  pair_unique ((mulFull_spec cap x y).trans (mulFull_spec cap' x y).symm)

theorem fullProduct_cap_irrelevant (cap cap' : Cap) {n : Nat} {a b : Value} (ha : a.length = n)
    (hb : b.length = n) : fullProduct cap n a b = fullProduct cap' n a b :=
  val_inj ((fullProduct_length cap n a b).trans (fullProduct_length cap' n a b).symm)
    ((val_fullProduct cap ha hb).trans (val_fullProduct cap' ha hb).symm)

/-- R14: the result depends on the instruction and `N` alone. The Capability Flag reaches it through
`mulFull` only, so the multiplications are the cases with something to prove. -/
theorem result_cap_irrelevant (cap cap' : Cap) {n : Nat} {i : Instr} (h : i.wf n = true) :
    result cap n i = result cap' n i := by
  obtain ⟨ha, hb⟩ := wf_iff.mp h
  cases i with
  | mulfull o => simp only [result, mulFull_cap_irrelevant cap cap']
  | mul o => simp only [result, fullProduct_cap_irrelevant cap cap' (a := o.a) (b := o.b) ha hb]
  | mulx o => simp only [result, fullProduct_cap_irrelevant cap cap' (a := o.a) (b := o.b) ha hb]
  | add | sub | not | and | or | xor | clz | shl | lsr => rfl

/-- Settles O14, by the cases of a step that answers. -/
theorem stepTakesOneAndDeliversOne : Obligations.StepTakesOneAndDeliversOne := by
  intro s t h
  obtain ⟨-, ⟨hp, rfl⟩ | ⟨c, rest, i, hp, -, -, rfl⟩⟩ := step_eq_next h
  · exact ⟨rfl, .inl ⟨hp, rfl⟩⟩
  · exact ⟨rfl, .inr ⟨c, _, hp, rfl⟩⟩

/-- Settles O29, by whether the instruction's operands have the common limb count: if they have, the
two states deliver the same result in the same format; if not, both refuse. -/
theorem responseDependsOnCommandAndLimbCountAlone :
    Obligations.ResponseDependsOnCommandAndLimbCountAlone := by
  intro i s s' hn
  cases hw : i.wf s.cfg.limbs with
  | true =>
    refine .inl ⟨_, exec_of_wf hw, ?_⟩
    rw [exec_of_wf (hn ▸ hw), ← hn, result_cap_irrelevant s'.cfg.cap s.cfg.cap hw]
    rfl
  | false => exact .inr ⟨_, exec_of_not_wf hw, exec_of_not_wf (hn ▸ hw)⟩

/-- Settles O22, by the decoding of the oldest command, and by the guard when one behind it is not
acceptable. -/
theorem stepRunsTheDecodedInstruction : Obligations.StepRunsTheDecodedInstruction := by
  intro s c rest i hp hd
  refine ⟨fun hrest => ?_, fun d hmem hbad => ?_⟩
  · rw [step_cons hp hrest, hd]
  · obtain ⟨e, he⟩ := guardPending_of_not_acceptable (s := s) (by simp [hp, hmem]) hbad
    exact ⟨e, he _⟩

/-- Settles O23: the placed command decodes as its vector does, and it is the only one pending. -/
theorem stepRunsTheFetchWord : Obligations.StepRunsTheFetchWord := by
  intro s nbits w i hd
  rw [decode_ofNat s.cfg.limbs_pos] at hd
  exact (stepRunsTheDecodedInstruction _ _ [] i (withFetchWord_pending s nbits w) hd).1 (by simp)

end Machine

end Sys2Proof
end

section
/-! SUPPORT and settlements of the family 10_state.md: the formats of the records in transit (R26, R27),
and which limbs of a response a result leaves zero (R27, R62). -/

namespace Sys2Proof.Machine

/-- R27: a response is zero above the limbs of its result. -/
theorem limb_extend_of_le {n k : Nat} {xs : Value} (h : xs.length ≤ k) : limb (extend n xs) k = 0 := by
  rw [limb, extend, List.getD_append_right _ _ _ _ h]
  exact limb_replicate_zero _ _

/-- R27: a result of at most `n` limbs leaves `r_hi` zero. -/
theorem rHi_extend {n : Nat} {xs : Value} (h : xs.length ≤ n) (c : Bool) :
    rHi n ⟨extend n xs, c⟩ = List.replicate n 0#64 := by
  have hzeros : 2 * n - xs.length - (n - xs.length) = n := by omega
  simp [rHi, extend, List.drop_append, List.drop_eq_nil_of_le h, hzeros]

/-- R30: only ADD and SUB have a flag to write. -/
theorem result_flag {cap : Cap} {n : Nat} {i : Instr} (hadd : i.mnemonic ≠ .add)
    (hsub : i.mnemonic ≠ .sub) : (result cap n i).2 = false := by
  cases i with
  | add => exact absurd rfl hadd
  | sub => exact absurd rfl hsub
  | mulfull | not | and | or | xor | clz | shl | lsr | mul | mulx => rfl

/-- R62: only MULFULL and MULX have a result of more than one value. -/
theorem resultLimbs_le_limbs {n : Nat} (hn : 0 < n) {m : Mnemonic} (hfull : m ≠ .mulfull)
    (hmulx : m ≠ .mulx) : resultLimbs n m ≤ n := by
  cases m with
  | mulfull => exact absurd rfl hfull
  | mulx => exact absurd rfl hmulx
  | clz => exact hn
  | add | sub | not | and | or | xor | shl | lsr | mul => exact le_refl n

/-- R27: the response to an instruction of the block has `2N` limbs. -/
theorem response_length {cfg : Config} {i : Instr} (h : i.wf cfg.limbs = true) :
    (extend cfg.limbs (result cfg.cap cfg.limbs i).1).length = 2 * cfg.limbs :=
  extend_length (result_length_le cfg.limbs_pos h)

theorem inv_iff {s : State} : s.inv = true ↔
    (∀ c ∈ s.pending, c.wf s.cfg.limbs = true) ∧ ∀ r ∈ s.responses, r.wf s.cfg.limbs = true := by
  simp [State.inv]

@[simp] theorem inv_resetFor (cfg : Config) : (State.resetFor cfg).inv = true := by
  simp [inv_iff]

theorem inv_of_pending_eq_cons {s : State} {c : Cmd} {rest : List Cmd} (hp : s.pending = c :: rest)
    (h : s.inv = true) : State.inv { s with pending := rest } = true := by
  obtain ⟨hcmds, hrsps⟩ := inv_iff.mp h
  exact inv_iff.mpr ⟨fun d hd => hcmds d (hp ▸ List.mem_cons_of_mem c hd), hrsps⟩

theorem inv_deliver {s : State} {r : Rsp} (h : s.inv = true) (hr : r.r.length = 2 * s.cfg.limbs) :
    (s.deliver r).inv = true := by
  obtain ⟨hcmds, hrsps⟩ := inv_iff.mp h
  refine inv_iff.mpr ⟨hcmds, fun q hq => ?_⟩
  obtain hold | hnew := List.mem_append.mp hq
  · exact hrsps q hold
  · rw [List.mem_singleton.mp hnew]
    simpa [Rsp.wf] using hr

/-- Settles O26, by the cases of a step that answers: an idle step keeps the state, any other takes the
oldest command away and delivers a response of `2N` limbs, and each of the two updates keeps the formats. -/
theorem stepKeepsRecordFormats : Obligations.StepKeepsRecordFormats := by
  intro s t hinv h
  obtain ⟨-, ⟨-, rfl⟩ | ⟨c, rest, i, hp, -, hw, rfl⟩⟩ := step_eq_next h
  · exact hinv
  · exact inv_deliver (inv_of_pending_eq_cons hp hinv) (response_length hw)

/-- Settles O13: an instruction that answers delivers its result placed in `rsp.r`, so every clause about
limbs follows from the number of limbs of the result. -/
theorem execAddsOneResponseOfItsShape : Obligations.ExecAddsOneResponseOfItsShape := by
  intro i s t h
  obtain ⟨hw, rfl⟩ := exec_eq_next h
  have hlen := result_length (cap := s.cfg.cap) hw
  refine ⟨rfl, rfl, _, rfl, response_length hw, result_flag, fun hfull hmulx => ?rHi,
    fun hm k hk => ?mulfull, fun hm k hk => ?clz⟩
  case rHi => exact rHi_extend (hlen.trans_le (resultLimbs_le_limbs s.cfg.limbs_pos hfull hmulx)) _
  case mulfull => exact limb_extend_of_le (by rw [hlen, hm]; exact hk)
  case clz => exact limb_extend_of_le (by rw [hlen, hm]; exact hk)

/-- Settles O27: with nothing in transit the formats hold of every record there is. -/
theorem resetHoldsNothing : Obligations.ResetHoldsNothing := by
  intro cfg
  exact ⟨inv_resetFor cfg, resetFor_pending cfg, resetFor_responses cfg, resetFor_cfg cfg, rfl⟩

end Sys2Proof.Machine
end

section
/-! SUPPORT and settlements of the family 20_memory.md: commands and responses in transit (R48), from one
step to any list of events of the host (R258). -/

namespace Sys2Proof.Machine

/-- Settles O24: nothing pending is nothing to refuse and nothing to take. -/
theorem idleStepChangesNothing : Obligations.IdleStepChangesNothing := by
  intro s hp
  have hnone : s.pendingRefusal = none := pendingRefusal_eq_none.mpr (by simp [hp])
  rw [step, guardPending_of_none hnone, take_nil hp]
  rfl

/-- R48: a step answers the oldest of the acceptable commands, with the response it gets issued alone. -/
theorem step_of_acceptable {s : State} {c : Cmd} {rest : List Cmd} (hp : s.pending = c :: rest)
    (ha : ∀ d ∈ s.pending, acceptable s.cfg.limbs d = true) :
    ∃ r, execN s.cfg c = some r ∧ step s = .next (({ s with pending := rest } : State).deliver r) := by
  rw [hp, List.forall_mem_cons] at ha
  obtain ⟨hc, hrest⟩ := ha
  obtain ⟨i, hd, hw⟩ := decodeCmd_of_acceptable hc
  refine ⟨_, execN_of_wf hd hw, ?_⟩
  rw [step_cons hp hrest, hd]
  exact exec_of_wf (s := { s with pending := rest }) hw

/-- R64, R252: a block just reset gives no response to a command the host must not issue. -/
theorem execN_of_not_acceptable {cfg : Config} {c : Cmd} (h : acceptable cfg.limbs c = false) :
    execN cfg c = none := by
  obtain ⟨e, he⟩ := guardPending_of_not_acceptable (s := (State.resetFor cfg).issue c) (c := c)
    (by simp) h
  rw [execN, step, he]

/-- R14, R48: `exec_N` depends on the configuration by `N` alone. -/
theorem execN_cap_irrelevant {cfg cfg' : Config} (hn : cfg.limbs = cfg'.limbs) (c : Cmd) :
    execN cfg c = execN cfg' c := by
  cases hc : acceptable cfg.limbs c with
  | true =>
    obtain ⟨i, hd, hw⟩ := decodeCmd_of_acceptable hc
    rw [execN_of_wf hd hw, execN_of_wf hd (hn ▸ hw), result_cap_irrelevant cfg.cap cfg'.cap hw, hn]
  | false => rw [execN_of_not_acceptable hc, execN_of_not_acceptable (hn ▸ hc)]

/-- A run takes its first step, then the others. -/
theorem run_of_step {M : Host.Core} {s t : M.State} (h : M.step s = .next t) (k : Nat) :
    M.run (k + 1) s = M.run k t := by
  rw [run_succ, h]

/-- R48: the run that takes one step for each pending command. -/
theorem run_pending (cs : List Cmd) {s : State} (hp : s.pending = cs)
    (ha : ∀ c ∈ s.pending, acceptable s.cfg.limbs c = true) :
    ∃ rs : List Rsp, rs.map some = cs.map (execN s.cfg) ∧
      Host.Core.run core cs.length s = .next ⟨s.cfg, [], s.responses ++ rs⟩ := by
  induction cs generalizing s with
  | nil =>
    have hs : s = ⟨s.cfg, [], s.responses ++ []⟩ := by rw [List.append_nil, ← hp]
    exact ⟨[], rfl, congrArg Host.Outcome.next hs⟩
  | cons c rest ih =>
    obtain ⟨r, hr, hstep⟩ := step_of_acceptable hp ha
    obtain ⟨rs, hrs, hrun⟩ := ih (s := ({ s with pending := rest } : State).deliver r) rfl
      fun d hd => ha d (hp ▸ List.mem_cons_of_mem c hd)
    refine ⟨r :: rs, by rw [List.map_cons, List.map_cons, hrs, hr]; rfl, ?_⟩
    rw [List.append_cons]
    exact (run_of_step (M := core) hstep rest.length).trans hrun

/-- Settles O32, by induction on the pending commands, each answered by the next step; and by `exec_N`
reading `N` alone of the configuration. -/
theorem commandsAnsweredOnceInOrderEachAsIfAlone :
    Obligations.CommandsAnsweredOnceInOrderEachAsIfAlone := by
  refine ⟨fun s ha => ?_, fun _ _ c hn => execN_cap_irrelevant hn c⟩
  obtain ⟨rs, hrs, hrun⟩ := run_pending s.pending rfl ha
  exact ⟨_, hrun, rfl, rfl, by rw [List.map_append, hrs]⟩

/-- What a stretch of a run from `s` to `t` with the commands `cs` issued on the way keeps: the
configuration and the responses delivered before; and the responses it delivers, followed by those still
to come, are responses of `exec_N` to some of the commands, in their order. -/
def DeliversOwn (s : State) (cs : List Cmd) (t : State) : Prop :=
  t.cfg = s.cfg ∧ ∃ rs : List Rsp, t.responses = s.responses ++ rs ∧
    (rs.map some ++ t.pending.map (execN s.cfg)).Sublist ((s.pending ++ cs).map (execN s.cfg))

/-- A stretch that delivers nothing, whatever it drops. -/
theorem DeliversOwn.of_sublist {s t : State} {cs : List Cmd} (hcfg : t.cfg = s.cfg)
    (hresp : t.responses = s.responses) (hsub : t.pending.Sublist (s.pending ++ cs)) :
    DeliversOwn s cs t :=
  ⟨hcfg, [], by rw [hresp, List.append_nil], hsub.map _⟩

theorem DeliversOwn.trans {s t u : State} {cs ds : List Cmd} (hst : DeliversOwn s cs t)
    (htu : DeliversOwn t ds u) : DeliversOwn s (cs ++ ds) u := by
  obtain ⟨hcfg, rs, hresp, hsub⟩ := hst
  obtain ⟨hcfg', rs', hresp', hsub'⟩ := htu
  rw [hcfg] at hsub'
  refine ⟨hcfg'.trans hcfg, rs ++ rs', by rw [hresp', hresp, List.append_assoc], ?_⟩
  have hlate := hsub'.append_left (rs.map some)
  have hearly := hsub.append_right (ds.map (execN s.cfg))
  simp only [List.map_append, List.append_assoc] at hlate hearly ⊢
  exact hlate.trans hearly

theorem step_deliversOwn {s t : State} (h : step s = .next t) : DeliversOwn s [] t := by
  obtain ⟨-, ⟨-, rfl⟩ | ⟨c, rest, i, hp, hd, hw, rfl⟩⟩ := step_eq_next h
  · exact .of_sublist rfl rfl (by simp)
  · exact ⟨rfl, [_], rfl, by simp [hp, execN_of_wf hd hw]⟩

/-- R250, R258: an event issues a command behind the others, drops all of them, or is a step. -/
theorem applyEvent_deliversOwn {e : Event} {s t : State} (h : applyEvent e s = .next t) :
    DeliversOwn s (issuedCommands [e]) t := by
  cases e with
  | issue c =>
    obtain ⟨-, ht⟩ := guardPending_eq_next h
    cases ht
    exact .of_sublist rfl rfl (List.Sublist.refl _)
  | reset =>
    obtain ⟨-, ht⟩ := guardPending_eq_next h
    cases ht
    exact .of_sublist rfl rfl (List.nil_sublist _)
  | step => exact step_deliversOwn h

theorem issuedCommands_cons (e : Event) (es : List Event) :
    issuedCommands (e :: es) = issuedCommands [e] ++ issuedCommands es := by
  cases e <;> rfl

/-- A run of events that answers goes through the state its first event answers. -/
theorem runEvents_cons_eq_next {e : Event} {es : List Event} {s t : State}
    (h : runEvents (e :: es) s = .next t) :
    ∃ u, applyEvent e s = .next u ∧ runEvents es u = .next t := by
  rw [runEvents] at h
  cases hu : applyEvent e s with
  | next u => rw [hu] at h; exact ⟨u, rfl, h⟩
  | fault r => rw [hu] at h; cases h
  | refused r => rw [hu] at h; cases h

theorem runEvents_deliversOwn {es : List Event} {s t : State} (h : runEvents es s = .next t) :
    DeliversOwn s (issuedCommands es) t := by
  induction es generalizing s with
  | nil =>
    obtain ⟨-, ht⟩ := guardPending_eq_next h
    cases ht
    exact .of_sublist rfl rfl (by simp)
  | cons e es ih =>
    obtain ⟨u, hfirst, hrest⟩ := runEvents_cons_eq_next h
    rw [issuedCommands_cons]
    exact (applyEvent_deliversOwn hfirst).trans (ih hrest)

/-- Settles O33, by induction on the events: the responses delivered and those still to come stay a
selection, in order, of the responses to the commands pending at the start and issued. -/
theorem anyScheduleDeliversInOrderOnlyOwnResponses :
    Obligations.AnyScheduleDeliversInOrderOnlyOwnResponses := by
  intro es s t h
  obtain ⟨hcfg, rs, hresp, hsub⟩ := runEvents_deliversOwn h
  exact ⟨hcfg, rs, hresp, (List.sublist_append_left _ _).trans hsub⟩

end Sys2Proof.Machine
end

section
/-! SUPPORT and settlements of the family 30_encoding.md: where the fields of the command and response
vectors stand (R60, R63), that reading and writing them are inverse to each other (R61), which codes are
refused (R64), which fields have no effect (R65), what the pseudo-operations
compute (R68), and what a transcript line names (R67). -/

namespace Sys2Proof

/-! ### Fields of a vector -/

theorem ofNat_slice (w lo v : Nat) :
    BitVec.ofNat (w + 1) (slice v (w + lo) lo) = BitVec.ofNat (w + 1) (v / 2 ^ lo) := by
  apply BitVec.eq_of_toNat_eq
  simp [slice]

theorem extractLsb'_eq_ofNat {m : Nat} (v : BitVec m) (lo w : Nat) :
    v.extractLsb' lo w = BitVec.ofNat w (v.toNat / 2 ^ lo) := by
  rw [BitVec.extractLsb', Nat.shiftRight_eq_div_pow]

/-- R12: the `n` limbs from bit `lo` up are those of the number without its `lo` low bits. -/
theorem limbsN_slice (n v lo : Nat) :
    limbsN n (slice v (lo + 64 * n - 1) lo) = limbsN n (v / 2 ^ lo) := by
  cases n with
  | zero => rfl
  | succ n =>
    have hwidth : lo + 64 * (n + 1) - 1 - lo + 1 = 64 * (n + 1) := by omega
    rw [slice, hwidth, limbsN_mod]

theorem limb_limbsN {n i : Nat} (hi : i < n) (v : Nat) :
    limb (limbsN n v) i = BitVec.ofNat 64 (v / 2 ^ (64 * i)) := by
  induction n generalizing i v with
  | zero => exact absurd hi (Nat.not_lt_zero i)
  | succ n ih =>
    cases i with
    | zero => simp [limbsN_succ]
    | succ i =>
      rw [limbsN_succ, limb_cons_succ, ih (Nat.lt_of_succ_lt_succ hi), Nat.div_div_eq_div_mul,
        pow_limbs_succ]

theorem limbsN_add_mul (a : Value) (v : Nat) :
    limbsN a.length (val a + 2 ^ (64 * a.length) * v) = a := by
  rw [← limbsN_mod, Nat.add_mul_mod_self_left, limbsN_mod, limbsN_val]

/-- R60: each field of the command is the vector without the bits below the field. -/
theorem unpackNat_eq (n v : Nat) : unpackNat n v =
    ⟨BitVec.ofNat 4 v, limbsN n (v / 2 ^ 68), limbsN n (v / 2 ^ (68 + 64 * n)),
      BitVec.ofNat 64 (v / 2 ^ 4)⟩ := by
  have hop := ofNat_slice 3 0 v
  have hsh := ofNat_slice 63 4 v
  have hhigh : 68 + 2 * (64 * n) - 1 = 68 + 64 * n + 64 * n - 1 := by omega
  rw [Nat.pow_zero, Nat.div_one] at hop
  rw [unpackNat, hop, hsh, limbsN_slice, hhigh, limbsN_slice]

/-- Settles O16: each field is the vector without the bits below it, cut to the field's length. -/
theorem commandVectorFieldPositions : Obligations.CommandVectorFieldPositions := by
  intro n v
  simp only [unpackCmd, unpackNat_eq, extractLsb'_eq_ofNat]
  refine ⟨by simp, trivial, by simp [Cmd.wf, Cmd.operands, Operands.wf], fun i hi => ⟨?a, ?b⟩⟩
  case a => rw [limb_limbsN hi, Nat.div_div_eq_div_mul, ← Nat.pow_add]
  case b => rw [limb_limbsN hi, Nat.div_div_eq_div_mul, ← Nat.pow_add]

/-! ### The command vector there and back -/

/-- R60: the number whose bits are the command vector, as digits of a mixed radix. -/
def cmdNumber (n : Nat) (c : Cmd) : Nat :=
  c.op.toNat + 2 ^ 4 * (c.sh.toNat + 2 ^ 64 * (val c.a + 2 ^ (64 * n) * val c.b))

theorem packCmd_eq (n : Nat) (c : Cmd) :
    packCmd n c = BitVec.ofNat (cmdBits n) (cmdNumber n c) := by
  rw [packCmd, cmdNumber]
  congr 1
  ring

theorem two_pow_cmdBits (n : Nat) :
    2 ^ cmdBits n = 2 ^ 4 * (2 ^ 64 * (2 ^ (64 * n) * 2 ^ (64 * n))) := by
  rw [cmdBits, Nat.two_mul, Nat.pow_add, Nat.pow_add, Nat.pow_add, Nat.mul_assoc]

/-- The digit `x` and those above it, in the radix `r`. -/
theorem add_mul_div_of_lt {x r : Nat} (h : x < r) (y : Nat) : (x + r * y) / r = y := by
  rw [Nat.add_mul_div_left _ _ (Nat.zero_lt_of_lt h), Nat.div_eq_of_lt h, Nat.zero_add]

theorem ofNat_add_mul {w : Nat} (x : BitVec w) (y : Nat) :
    BitVec.ofNat w (x.toNat + 2 ^ w * y) = x := by
  apply BitVec.eq_of_toNat_eq
  rw [BitVec.toNat_ofNat, Nat.add_mul_mod_self_left, Nat.mod_eq_of_lt x.isLt]

theorem cmdWf_iff {n : Nat} {c : Cmd} : c.wf n = true ↔ c.a.length = n ∧ c.b.length = n :=
  Machine.wf_iff

/-- R60: reading the number of a command gives its fields, each at every value. -/
theorem unpackNat_cmdNumber {n : Nat} {c : Cmd} (h : c.wf n = true) :
    unpackNat n (cmdNumber n c) = c := by
  obtain ⟨op, a, b, sh⟩ := c
  obtain ⟨rfl, hb⟩ := cmdWf_iff.mp h
  have hsh : cmdNumber a.length ⟨op, a, b, sh⟩ / 2 ^ 4 =
      sh.toNat + 2 ^ 64 * (val a + 2 ^ (64 * a.length) * val b) := add_mul_div_of_lt op.isLt _
  have ha : cmdNumber a.length ⟨op, a, b, sh⟩ / 2 ^ 68 =
      val a + 2 ^ (64 * a.length) * val b := by
    rw [Nat.pow_add 2 4 64, ← Nat.div_div_eq_div_mul, hsh, add_mul_div_of_lt sh.isLt]
  have hval : cmdNumber a.length ⟨op, a, b, sh⟩ / 2 ^ (68 + 64 * a.length) = val b := by
    rw [Nat.pow_add, ← Nat.div_div_eq_div_mul, ha, add_mul_div_of_lt (val_lt a)]
  rw [unpackNat_eq, hsh, ha, hval, limbsN_add_mul, ofNat_add_mul, cmdNumber, ofNat_add_mul,
    ← eq_limbsN hb rfl]

/-- R60: writing back what was read gives the number, up to the length of the vector. -/
theorem cmdNumber_unpackNat (n v : Nat) : cmdNumber n (unpackNat n v) = v % 2 ^ cmdBits n := by
  rw [unpackNat_eq, two_pow_cmdBits, Nat.mod_mul, Nat.mod_mul, Nat.mod_mul]
  simp only [cmdNumber, BitVec.toNat_ofNat, val_limbsN, Nat.div_div_eq_div_mul, Nat.pow_add 2 68,
    Nat.pow_add 2 4 64, Nat.mul_assoc]

theorem packCmd_unpackCmd {n : Nat} (v : BitVec (cmdBits n)) : packCmd n (unpackCmd n v) = v := by
  apply BitVec.eq_of_toNat_eq
  rw [packCmd_eq, unpackCmd, cmdNumber_unpackNat, BitVec.toNat_ofNat, Nat.mod_mod,
    Nat.mod_eq_of_lt v.isLt]

theorem unpackCmd_packCmd {n : Nat} {c : Cmd} (h : c.wf n = true) :
    unpackCmd n (packCmd n c) = c := by
  have hcut : cmdNumber n c % 2 ^ cmdBits n = cmdNumber n c := by
    rw [← cmdNumber_unpackNat, unpackNat_cmdNumber h]
  rw [packCmd_eq, unpackCmd, BitVec.toNat_ofNat, hcut, unpackNat_cmdNumber h]

/-- R61: the record round trip of every instruction. -/
theorem recordRoundTrip : ∀ i : Instr, Laws.RecordRoundTrip.Statement i
  | .mulfull o => Laws.RecordRoundTrip.mulfull o
  | .add o => Laws.RecordRoundTrip.add o
  | .sub o => Laws.RecordRoundTrip.sub o
  | .not o => Laws.RecordRoundTrip.not o
  | .and o => Laws.RecordRoundTrip.and o
  | .or o => Laws.RecordRoundTrip.or o
  | .xor o => Laws.RecordRoundTrip.xor o
  | .clz o => Laws.RecordRoundTrip.clz o
  | .shl o => Laws.RecordRoundTrip.shl o
  | .lsr o => Laws.RecordRoundTrip.lsr o
  | .mul o => Laws.RecordRoundTrip.mul o
  | .mulx o => Laws.RecordRoundTrip.mulx o

theorem decodeCmd_encodeCmd (i : Instr) : decodeCmd (encodeCmd i) = .ok i := (recordRoundTrip i).1

theorem encodeCmd_wf (n : Nat) (i : Instr) : (encodeCmd i).wf n = i.wf n := (recordRoundTrip i).2 n

/-- Settles O18: the vector reads back as the command record, and the record decodes to the instruction. -/
theorem decodeOfEncode : Obligations.DecodeOfEncode := by
  intro n i h
  rw [decode, encode, unpackCmd_packCmd ((encodeCmd_wf n i).trans h), decodeCmd_encodeCmd]

theorem code_of_ofCode {op : BitVec 4} {m : Mnemonic} (h : Mnemonic.ofCode op = some m) :
    m.code = op := by
  revert op m
  decide

@[simp] theorem mnemonic_ofMnemonic (m : Mnemonic) (o : Operands) :
    (Instr.ofMnemonic m o).mnemonic = m := by
  cases m <;> rfl

@[simp] theorem operands_ofMnemonic (m : Mnemonic) (o : Operands) :
    (Instr.ofMnemonic m o).operands = o := by
  cases m <;> rfl

theorem decodeCmd_eq_ok {c : Cmd} {i : Instr} (h : decodeCmd c = .ok i) :
    ∃ m, Mnemonic.ofCode c.op = some m ∧ i = Instr.ofMnemonic m c.operands := by
  rw [decodeCmd] at h
  cases hm : Mnemonic.ofCode c.op with
  | none => rw [hm] at h; cases h
  | some m => rw [hm] at h; cases h; exact ⟨m, rfl, rfl⟩

/-- R61: a command the record decoder accepts is the command record of the instruction it gives. -/
theorem encodeCmd_of_decodeCmd {c : Cmd} {i : Instr} (h : decodeCmd c = .ok i) : encodeCmd i = c := by
  obtain ⟨m, hm, rfl⟩ := decodeCmd_eq_ok h
  rw [encodeCmd, mnemonic_ofMnemonic, operands_ofMnemonic, code_of_ofCode hm]
  rfl

/-- Settles O19: an accepted vector holds the command record of the instruction, and writing what was
read gives the vector back. -/
theorem encodeOfDecode : Obligations.EncodeOfDecode := by
  intro n v i h
  have hrec : encodeCmd i = unpackCmd n v := encodeCmd_of_decodeCmd h
  obtain ⟨-, -, hwf, -⟩ := commandVectorFieldPositions n v
  refine ⟨?_, by rw [encode, hrec, packCmd_unpackCmd]⟩
  rw [← encodeCmd_wf, hrec, hwf]

/-! ### The response vector -/

theorem packRsp_toNat {n : Nat} {r : Rsp} (h : r.wf n = true) :
    (packRsp n r).toNat = r.cout.toNat + 2 * val r.r := by
  have hlen : r.r.length = 2 * n := by simpa [Rsp.wf] using h
  have hval := val_lt r.r
  have hcout := Bool.toNat_le r.cout
  have hbits : 64 * r.r.length = 2 * (64 * n) := by omega
  rw [hbits] at hval
  rw [packRsp, BitVec.toNat_ofNat, rspBits, Nat.mod_eq_of_lt]
  rw [Nat.pow_add]
  omega

/-- R63: above `cout` the response vector is the number `rsp.r` stands for. -/
theorem packRsp_toNat_div {n : Nat} {r : Rsp} (h : r.wf n = true) :
    (packRsp n r).toNat / 2 = val r.r := by
  have hcout := Bool.toNat_le r.cout
  rw [packRsp_toNat h]
  omega

theorem packRsp_toNat_mod {n : Nat} {r : Rsp} (h : r.wf n = true) :
    (packRsp n r).toNat % 2 = r.cout.toNat := by
  have hcout := Bool.toNat_le r.cout
  rw [packRsp_toNat h]
  omega

theorem unpackRsp_eq (n : Nat) (v : BitVec (rspBits n)) :
    unpackRsp n v = ⟨limbsN (2 * n) (v.toNat / 2), v.toNat % 2 == 1⟩ := by
  have hwidth : 2 * (64 * n) = 1 + 64 * (2 * n) - 1 := by omega
  rw [unpackRsp, hwidth, limbsN_slice]
  simp [slice]

theorem limb_eq_ofNat (a : Value) (i : Nat) : limb a i = BitVec.ofNat 64 (val a / 2 ^ (64 * i)) := by
  apply BitVec.eq_of_toNat_eq
  rw [limb_toNat, BitVec.toNat_ofNat]

/-- Settles O17: the response vector is `cout` below the number `rsp.r` stands for. -/
theorem responseVectorRoundTrip : Obligations.ResponseVectorRoundTrip := by
  intro n r h
  have hdiv := packRsp_toNat_div h
  have hmod := packRsp_toNat_mod h
  have hlen : r.r.length = 2 * n := by simpa [Rsp.wf] using h
  refine ⟨?cout, fun i _ => ?limb, ?back⟩
  case cout => simp [← BitVec.testBit_toNat, hmod]
  case limb =>
    rw [extractLsb'_eq_ofNat, Nat.pow_add, ← Nat.div_div_eq_div_mul, Nat.pow_one, hdiv, limb_eq_ofNat]
  case back => simp [unpackRsp_eq, hdiv, hmod, ← eq_limbsN hlen rfl]

/-! ### Reserved codes -/

theorem ofCode_eq_none {op : BitVec 4} : Mnemonic.ofCode op = none ↔ 0xC ≤ op.toNat := by
  revert op
  decide

theorem decodeCmd_of_reserved {c : Cmd} (h : 0xC ≤ c.op.toNat) :
    decodeCmd c = .error (.reservedOp c.op) := by
  rw [decodeCmd, ofCode_eq_none.mpr h]

theorem decodeCmd_of_not_reserved {c : Cmd} (h : c.op.toNat < 0xC) : ∃ i, decodeCmd c = .ok i := by
  have hsome : Mnemonic.ofCode c.op ≠ none := fun hn => absurd (ofCode_eq_none.mp hn) (by omega)
  obtain ⟨m, hm⟩ := Option.ne_none_iff_exists'.mp hsome
  exact ⟨_, by rw [decodeCmd, hm]⟩

namespace Machine

theorem acceptable_of_reserved {n : Nat} {c : Cmd} (h : 0xC ≤ c.op.toNat) : acceptable n c = false := by
  rw [acceptable, ofCode_eq_none.mpr h, Option.isSome_none, Bool.and_false]

/-- R64: a reserved command first in line names the refusal. -/
theorem step_of_reserved {s : State} {c : Cmd} {rest : List Cmd} (hp : s.pending = c :: rest)
    (h : 0xC ≤ c.op.toNat) : step s = .refused (.reservedOp c.op) := by
  have hc : cmdRefusal s.cfg.limbs c = some (.reservedOp c.op) := by
    rw [cmdRefusal, decodeCmd_of_reserved h]
    rfl
  have hs : s.pendingRefusal = some (.reservedOp c.op) := by
    rw [State.pendingRefusal, hp, List.findSome?_cons, hc]
  exact guardPending_of_some hs _

/-- R64: an event goes on only from acceptable commands, the one it issues included. -/
theorem acceptable_of_applyEvent_eq_next {e : Event} {s t : State} (h : applyEvent e s = .next t) :
    ∀ c ∈ s.pending ++ issuedCommands [e], acceptable s.cfg.limbs c = true := by
  cases e with
  | issue c => exact pendingRefusal_eq_none.mp (guardPending_eq_next h).1
  | reset => simpa [issuedCommands] using pendingRefusal_eq_none.mp (guardPending_eq_next h).1
  | step => simpa [issuedCommands] using (step_eq_next h).1

/-- R64: a run of events answers only when every command of it is acceptable, each as it is issued. -/
theorem acceptable_of_runEvents_eq_next {es : List Event} {s t : State} (h : runEvents es s = .next t) :
    ∀ c ∈ s.pending ++ issuedCommands es, acceptable s.cfg.limbs c = true := by
  induction es generalizing s with
  | nil => simpa [issuedCommands] using pendingRefusal_eq_none.mp (guardPending_eq_next h).1
  | cons e es ih =>
    obtain ⟨u, hfirst, hrest⟩ := runEvents_cons_eq_next h
    obtain ⟨hcfg, -⟩ := applyEvent_deliversOwn hfirst
    intro c hc
    rw [issuedCommands_cons, ← List.append_assoc, List.mem_append] at hc
    obtain hnow | hlater := hc
    · exact acceptable_of_applyEvent_eq_next hfirst c hnow
    · exact hcfg ▸ ih hrest c (List.mem_append_right _ hlater)

/-- R64: a run with a command on it that the host must not issue is refused. -/
theorem runEvents_of_not_acceptable {es : List Event} {s : State} {c : Cmd}
    (hc : c ∈ s.pending ++ issuedCommands es) (h : acceptable s.cfg.limbs c = false) :
    ∃ e, runEvents es s = .refused e := by
  cases hr : runEvents es s with
  | next t => rw [acceptable_of_runEvents_eq_next hr c hc] at h; cases h
  | fault f => cases f
  | refused e => exact ⟨e, rfl⟩

/-- Settles O20, by the record decoder at the code the vector holds, and by what a step and a run of
events do with a command it refuses. -/
theorem reservedCodesAreRefused : Obligations.ReservedCodesAreRefused := by
  have hop (n : Nat) (v : BitVec (cmdBits n)) : (unpackCmd n v).op = v.extractLsb' 0 4 :=
    (commandVectorFieldPositions n v).1
  refine ⟨fun n v => ?refused, fun n v => ?accepted, fun s c rest hp h => step_of_reserved hp h,
    fun es s c hc h => runEvents_of_not_acceptable hc (acceptable_of_reserved h)⟩
  case refused =>
    rw [← hop]
    refine ⟨fun h => ?_, decodeCmd_of_reserved⟩
    by_contra hlt
    obtain ⟨i, hi⟩ := decodeCmd_of_not_reserved (Nat.lt_of_not_le hlt)
    cases h.symm.trans hi
  case accepted =>
    rw [← hop]
    refine ⟨fun ⟨i, hi⟩ => ?_, decodeCmd_of_not_reserved⟩
    by_contra hle
    cases (decodeCmd_of_reserved (Nat.le_of_not_lt hle)).symm.trans hi

/-! ### Fields an operation does not read -/

theorem result_of_agreeOnReads {cap : Cap} {n : Nat} {m : Mnemonic} {o p : Operands}
    (h : agreeOnReads m o p = true) :
    result cap n (Instr.ofMnemonic m o) = result cap n (Instr.ofMnemonic m p) := by
  cases m with
  | mulfull =>
    obtain ⟨hx, hy⟩ : operandX o = operandX p ∧ operandY o = operandY p := by
      simpa [agreeOnReads, Mnemonic.reads, Field.same, operandX, operandY] using h
    simp only [Instr.ofMnemonic, result, hx, hy]
  | add | sub | and | or | xor | mul | mulx =>
    obtain ⟨ha, hb⟩ : o.a = p.a ∧ o.b = p.b := by
      simpa [agreeOnReads, Mnemonic.reads, Field.same] using h
    simp only [Instr.ofMnemonic, result, ha, hb]
  | not | clz =>
    have ha : o.a = p.a := by simpa [agreeOnReads, Mnemonic.reads, Field.same] using h
    simp only [Instr.ofMnemonic, result, ha]
  | shl | lsr =>
    obtain ⟨ha, hs⟩ : o.a = p.a ∧ o.sh = p.sh := by
      simpa [agreeOnReads, Mnemonic.reads, Field.same] using h
    simp only [Instr.ofMnemonic, result, amount, ha, hs]

/-- Settles O30: the result is a function of the fields read, and both records have the block's limbs. -/
theorem ignoredFieldsHaveNoEffect : Obligations.IgnoredFieldsHaveNoEffect := by
  intro m o p s ho hp h
  rw [exec_eq_answer, exec_eq_answer, operands_ofMnemonic, operands_ofMnemonic, answer_of_wf ho,
    answer_of_wf hp, result_of_agreeOnReads h]

/-! ### Pseudo-operations (R68) -/

theorem take_extend {n : Nat} {xs : Value} (h : xs.length = n) : (extend n xs).take n = xs := by
  rw [extend, ← h, List.take_left']
  rfl

/-- `r_lo` of the response to an instruction whose result is one value. -/
theorem execLo_encodeCmd {cfg : Config} {i : Instr} (hw : i.wf cfg.limbs = true)
    (hm : resultLimbs cfg.limbs i.mnemonic = cfg.limbs) :
    execLo cfg (encodeCmd i) = some (result cfg.cap cfg.limbs i).1 := by
  rw [execLo, execN_of_wf (decodeCmd_encodeCmd i) hw, Option.map_some, rLo,
    take_extend ((result_length hw).trans hm)]

theorem val_valueZero (n : Nat) : val (valueZero n) = 0 := by
  rw [valueZero, val_limbsN, Nat.zero_mod]

theorem val_valueOne {n : Nat} (hn : 0 < n) : val (valueOne n) = 1 :=
  val_limbsN_of_lt (Nat.one_lt_two_pow (by omega))

theorem val_valueMax (n : Nat) : val (valueMax n) = 2 ^ (64 * n) - 1 :=
  val_limbsN_of_lt (Nat.sub_lt (Nat.two_pow_pos _) Nat.one_pos)

/-- R114: SUB on values of `n` limbs, modulo `2^W`. -/
theorem val_subChain {a b : Value} {n : Nat} (ha : a.length = n) (hb : b.length = n) :
    val (subChain false a b).1 = (2 ^ (64 * n) + val a - val b) % 2 ^ (64 * n) := by
  obtain ⟨hlen, hval⟩ := subChain_spec false a b (ha.trans hb.symm)
  have hr : val (subChain false a b).1 < 2 ^ (64 * n) := ha ▸ hlen ▸ val_lt _
  rw [ha, Bool.toNat_false, Nat.add_zero] at hval
  cases hbw : (subChain false a b).2 with
  | false =>
    rw [hbw, Bool.toNat_false, Nat.mul_zero, Nat.add_zero] at hval
    rw [← hval, ← Nat.add_assoc, Nat.add_sub_cancel, Nat.add_mod_left, Nat.mod_eq_of_lt hr]
  | true =>
    rw [hbw, Bool.toNat_true, Nat.mul_one, Nat.add_comm (val a)] at hval
    rw [← hval, Nat.add_sub_cancel, Nat.mod_eq_of_lt hr]

/-- R68: OR with zero gives every limb back. -/
theorem zipWith_or_valueZero {n : Nat} {a : Value} (h : a.length = n) :
    List.zipWith (fun x y => x ||| y) a (valueZero n) = a := by
  have hlen : a.length = (valueZero n).length := h.trans (limbsN_length n 0).symm
  refine val_inj (by simp [← hlen]) ?_
  rw [val_zipWith_or hlen, val_valueZero, Nat.or_zero]

/-- Settles O56: each pseudo-operation is answered with the result of the instruction it stands for. -/
theorem pseudoOperationsCompute : Obligations.PseudoOperationsCompute := by
  intro cfg a k ha
  have hzero : (valueZero cfg.limbs).length = cfg.limbs := limbsN_length _ _
  have hk : (limbsN cfg.limbs k).length = cfg.limbs := limbsN_length _ _
  refine ⟨⟨_, execLo_encodeCmd (wf_iff.mpr ⟨hzero, ha⟩) rfl, ?neg⟩,
    fun hlt => ⟨_, execLo_encodeCmd (wf_iff.mpr ⟨ha, hk⟩) rfl, ?mulk⟩,
    ?mov, val_valueZero _, val_valueOne cfg.limbs_pos, val_valueMax _⟩
  case neg => exact (val_subChain hzero ha).trans (by rw [val_valueZero, Nat.add_zero])
  case mulk =>
    exact (val_take _ _).trans (by rw [val_fullProduct cfg.cap ha hk, val_limbsN_of_lt hlt])
  case mov =>
    have hor := execLo_encodeCmd (i := pseudoMov cfg.limbs a) (wf_iff.mpr ⟨ha, hzero⟩) rfl
    exact hor.trans (congrArg some (zipWith_or_valueZero ha))

/-! ### Transcript lines (R67) -/

theorem length_of_argValue {n : Nat} {h : HostNames} {x : Arg} {v : Value}
    (hv : x.value n h = some v) : v.length = n := by
  cases x with
  | number k =>
    simp only [Arg.value] at hv
    split at hv
    · cases hv; exact limbsN_length n k
    · cases hv
  | limbs ls =>
    simp only [Arg.value] at hv
    split at hv
    next hl => cases hv; exact hl
    next => cases hv
  | name y =>
    obtain ⟨-, hl⟩ := Option.filter_eq_some_iff.mp hv
    exact beq_iff_eq.mp hl
  | part y start len =>
    obtain ⟨w, -, hw⟩ := Option.bind_eq_some_iff.mp hv
    simp only at hw
    split at hw
    next hl => cases hw; simp at hl ⊢; omega
    next => cases hw

theorem wf_of_lineOperands {n : Nat} {h : HostNames} {l : Line} {o : Operands}
    (ho : l.operands n h = some o) : o.wf n = true := by
  obtain ⟨a, ha, hrest⟩ := Option.bind_eq_some_iff.mp ho
  have hlen := length_of_argValue ha
  split at hrest
  · obtain ⟨s, -, rfl⟩ := Option.map_eq_some_iff.mp hrest
    exact wf_iff.mpr ⟨hlen, limbsN_length n 0⟩
  split at hrest
  · obtain ⟨b, hb, rfl⟩ := Option.map_eq_some_iff.mp hrest
    obtain ⟨x, -, hx⟩ := Option.bind_eq_some_iff.mp hb
    exact wf_iff.mpr ⟨hlen, length_of_argValue hx⟩
  · cases hrest
    exact wf_iff.mpr ⟨hlen, limbsN_length n 0⟩

theorem acceptable_encodeCmd {n : Nat} {i : Instr} (h : i.wf n = true) :
    acceptable n (encodeCmd i) = true := by
  obtain ⟨m, hm, -⟩ := decodeCmd_eq_ok (decodeCmd_encodeCmd i)
  rw [acceptable, encodeCmd_wf, h, hm]
  rfl

/-- Settles O57: the operands of a line have the block's limbs, so its command is answered, and the line
names what it is answered with. -/
theorem transcriptLineNamesItsResponse : Obligations.TranscriptLineNamesItsResponse := by
  intro cfg h l o ho
  have hw : (Instr.ofMnemonic l.op o).wf cfg.limbs = true := by
    rw [Instr.wf, operands_ofMnemonic]
    exact wf_of_lineOperands ho
  have hr := execN_of_wf (decodeCmd_encodeCmd (Instr.ofMnemonic l.op o)) hw
  refine ⟨acceptable_encodeCmd hw, _, hr, ?_⟩
  rw [runLine, ho, Option.bind_some, hr, Option.map_some]

/-- Settles O21, by decoding the nine vectors. -/
theorem writtenOutWordsDecode : Obligations.WrittenOutWordsDecode := by
  exact ⟨rfl, rfl, rfl, rfl, rfl, rfl, rfl, rfl, rfl⟩

end Machine

end Sys2Proof
end

section
/-! SUPPORT and settlements of the family 40_mulfull.md: the pair of `mul_full` is fixed by its contract
(R90), so MULFULL (R91), the agreement of the builds (R96) and the laws (R99) are arithmetic on that one
equation; and the bounds of the generic sequence (R95). -/

namespace Sys2Proof

/-- R11: a slice fits its width. -/
theorem slice_lt (v hi lo : Nat) : slice v hi lo < 2 ^ (hi - lo + 1) :=
  Nat.mod_lt _ (Nat.two_pow_pos _)

namespace Machine

/-- Settles O1: the two limbs `mul_full` gives stand for the product, by its contract. -/
theorem mulfullDeliversExactProduct : Obligations.MulfullDeliversExactProduct := by
  intro o s h
  refine ⟨rfl, ?_⟩
  have hlen : 2 ≤ 2 * s.cfg.limbs := Nat.mul_le_mul_left 2 s.cfg.limbs_pos
  have hval : val [(mulFull s.cfg.cap (operandX o) (operandY o)).1,
      (mulFull s.cfg.cap (operandX o) (operandY o)).2] = (operandX o).toNat * (operandY o).toNat :=
    mulFull_spec s.cfg.cap (operandX o) (operandY o)
  rw [exec_eq_answer]
  exact answer_val h hlen hval

/-! ### The Capability Flag (R96) -/

/-- R220: a step from acceptable commands answers. -/
theorem step_eq_next_of_acceptable {s : State}
    (ha : ∀ c ∈ s.pending, acceptable s.cfg.limbs c = true) : ∃ t, step s = .next t := by
  cases hp : s.pending with
  | nil => exact ⟨s, idleStepChangesNothing s hp⟩
  | cons c rest =>
    obtain ⟨r, -, hstep⟩ := step_of_acceptable hp ha
    exact ⟨_, hstep⟩

/-- R64: a step refuses for the refused command pending, and for nothing else. -/
theorem step_eq_refused_iff {s : State} {e : Refusal} :
    step s = .refused e ↔ s.pendingRefusal = some e := by
  refine ⟨fun h => ?_, fun h => guardPending_of_some h _⟩
  cases hr : s.pendingRefusal with
  | none =>
    obtain ⟨t, ht⟩ := step_eq_next_of_acceptable (pendingRefusal_eq_none.mp hr)
    cases ht.symm.trans h
  | some e' =>
    have he' : step s = .refused e' := guardPending_of_some hr _
    cases he'.symm.trans h
    rfl

@[simp] theorem pendingRefusal_withCap (s : State) (cap : Cap) :
    (s.withCap cap).pendingRefusal = s.pendingRefusal := rfl

/-- R96: the same step of a block of the other build delivers the same response. -/
theorem step_withCap {s t : State} (cap : Cap) (h : step s = .next t) :
    step (s.withCap cap) = .next (t.withCap cap) := by
  obtain ⟨ha, ⟨hp, rfl⟩ | ⟨c, rest, i, hp, hd, hw, rfl⟩⟩ := step_eq_next h
  · exact idleStepChangesNothing _ hp
  · have hrest : ∀ d ∈ rest, acceptable s.cfg.limbs d = true :=
      fun d hmem => ha d (hp ▸ List.mem_cons_of_mem c hmem)
    rw [step_cons (s := s.withCap cap) hp hrest, hd, result_cap_irrelevant s.cfg.cap cap hw]
    exact exec_of_wf (s := { s.withCap cap with pending := rest }) hw

/-- Settles O31: the pair is unique; a step that answers delivers a result that does not depend on the
build; and a refusal depends on the pending commands and `N` alone. -/
theorem capabilityFlagIsInvisible : Obligations.CapabilityFlagIsInvisible := by
  refine ⟨mulFull_cap_irrelevant .native .generic, fun s cap t h => step_withCap cap h,
    fun s cap e => ?_⟩
  rw [step_eq_refused_iff, step_eq_refused_iff, pendingRefusal_withCap]

/-! ### The generic sequence (R95) -/

/-- R95: each of the four products is one of 32-bit halves. -/
theorem genericSteps_products_le (x y : Limb) :
    ∀ t ∈ [(genericSteps x y).t0, (genericSteps x y).t1, (genericSteps x y).t2, (genericSteps x y).t3],
      t ≤ (2 ^ 32 - 1) ^ 2 := by
  have hlow (v : Limb) : slice v.toNat 31 0 < 2 ^ 32 := slice_lt _ _ _
  have hhigh (v : Limb) : slice v.toNat 63 32 < 2 ^ 32 := slice_lt _ _ _
  simp only [List.forall_mem_cons, Nat.pow_two]
  exact ⟨half_mul_le (hlow x) (hlow y), half_mul_le (hhigh x) (hlow y), half_mul_le (hlow x) (hhigh y),
    half_mul_le (hhigh x) (hhigh y), by simp⟩

/-- Settles O35: the bounds are those of the products and of the sums; `lo` is below `2^64` and
`lo + hi·2^64` is the product, so `lo` and `hi` are its remainder and its quotient. -/
theorem genericSequenceStaysInLimbsAndIsExact :
    Obligations.GenericSequenceStaysInLimbsAndIsExact := by
  intro x y g
  have hproducts := genericSteps_products_le x y
  have ht0 : g.t0 ≤ (2 ^ 32 - 1) ^ 2 := hproducts g.t0 List.mem_cons_self
  obtain ⟨hu1, hu2, hlo, hhi, hsum⟩ := genericSteps_spec x y
  refine ⟨hproducts, ?carry, hu1, hu2, hlo, hhi, ?lo, ?hi⟩
  case carry => omega
  case lo => rw [← hsum, Nat.add_mul_mod_self_left, Nat.mod_eq_of_lt hlo]
  case hi => rw [← hsum, add_mul_div_of_lt hlo]

/-! ### The laws of `mul_full` (R99) -/

/-- R90: `mul_full` gives the pair that meets its contract. -/
theorem mulFull_eq {cap : Cap} {x y : Limb} {p : Limb × Limb}
    (h : p.1.toNat + 2 ^ 64 * p.2.toNat = x.toNat * y.toNat) : mulFull cap x y = p :=
  pair_unique ((mulFull_spec cap x y).trans h.symm)

theorem mulFull_comm (cap : Cap) (x y : Limb) : mulFull cap x y = mulFull cap y x :=
  mulFull_eq ((mulFull_spec cap y x).trans (Nat.mul_comm _ _))

/-- A product by `2^k` is divided by `2^64` as its other factor is by `2^(64-k)`. -/
theorem mul_two_pow_div (v : Nat) {k : Nat} (hk : k ≤ 64) : v * 2 ^ k / 2 ^ 64 = v / 2 ^ (64 - k) := by
  rw [← Nat.pow_sub_mul_pow 2 hk, Nat.mul_div_mul_right _ _ (Nat.two_pow_pos k)]

theorem mulFull_two_pow (cap : Cap) (x : Limb) {k : Nat} (hk : k < 64) :
    mulFull cap x (BitVec.ofNat 64 (2 ^ k)) = (shl64 x k, shr64 x (64 - k)) := by
  refine mulFull_eq ?_
  have hfactor : (BitVec.ofNat 64 (2 ^ k)).toNat = 2 ^ k :=
    Nat.mod_eq_of_lt (Nat.pow_lt_pow_right (by decide) hk)
  rw [hfactor, shl64_toNat, shr64_toNat, ← mul_two_pow_div _ hk.le, Nat.mod_add_div]

/-- `(2^64 - 1)·y = (2^64 - y) + (y - 1)·2^64`. -/
theorem mulFull_max (cap : Cap) {y : Limb} (hy : 1 ≤ y.toNat) :
    mulFull cap (BitVec.ofNat 64 (2 ^ 64 - 1)) y =
      (BitVec.ofNat 64 (2 ^ 64 - y.toNat), BitVec.ofNat 64 (y.toNat - 1)) := by
  refine mulFull_eq ?_
  have hlt := y.isLt
  simp only [BitVec.toNat_ofNat]
  omega

/-- Settles O42, law by law: each right side meets the contract of `mul_full`. -/
theorem mulFullLaws : Obligations.MulFullLaws := by
  intro cap x y
  exact ⟨mulFull_comm cap x y, mulFull_eq (by simp), mulFull_eq (by simp),
    fun k _ hk => mulFull_two_pow cap x (Nat.lt_succ_of_le hk), mulFull_max cap⟩

end Machine

end Sys2Proof
end

section
/-! SUPPORT and settlements of the family 41_addsub.md: the chains of ADD and SUB in unbounded integers
(R110, R114), the agreement of every instruction with the arbitrary-precision reference (R120, R200), the
other circuits of the adder and the subtractor (R112, R115, R116), and the laws (R117 to R119), which are
those of the ring of residues modulo `2^W`. -/

namespace Sys2Proof

/-- The digits of a number in the radix `r` are unique. -/
theorem add_mul_unique {r v w j k : Nat} (hv : v < r) (hw : w < r) (h : v + r * j = w + r * k) :
    v = w ∧ j = k := by
  have hjk : j = k := by rw [← add_mul_div_of_lt hv j, h, add_mul_div_of_lt hw]
  exact ⟨Nat.add_right_cancel (hjk ▸ h), hjk⟩

theorem val_lt_of_length {a : Value} {n : Nat} (h : a.length = n) : val a < 2 ^ (64 * n) :=
  h ▸ val_lt a

theorem take_limbsN {m n : Nat} (h : n ≤ m) (v : Nat) : (limbsN m v).take n = limbsN n v := by
  have hlen : ((limbsN m v).take n).length = n := by simpa using h
  have hval : val ((limbsN m v).take n) = v % 2 ^ (64 * n) := by
    rw [val_take, val_limbsN, Nat.mod_mod_of_dvd _ (Nat.pow_dvd_pow 2 (Nat.mul_le_mul_left 64 h))]
  exact (eq_limbsN hlen hval).trans (limbsN_mod n v)

namespace Machine

theorem rLo_limbsN (n v : Nat) (c : Bool) : rLo n ⟨limbsN (2 * n) v, c⟩ = limbsN n v :=
  take_limbsN (Nat.le_mul_of_pos_left n Nat.two_pos) v

/-! ### The reference of ADD and SUB -/

/-- R110: the carry out says that the sum does not fit. -/
theorem referenceAdd_flag {w a b : Nat} (ha : a < 2 ^ w) (hb : b < 2 ^ w) :
    (referenceAdd w a b).2 = decide (2 ^ w ≤ a + b) := by
  have hlt : (a + b) / 2 ^ w < 2 := Nat.div_lt_of_lt_mul (by omega)
  have hle : 1 ≤ (a + b) / 2 ^ w ↔ 2 ^ w ≤ a + b := by
    rw [Nat.le_div_iff_mul_le (Nat.two_pow_pos w), Nat.one_mul]
  rw [referenceAdd, Bool.eq_iff_iff, beq_iff_eq, decide_eq_true_iff]
  omega

theorem referenceAdd_comm (w a b : Nat) : referenceAdd w a b = referenceAdd w b a := by
  rw [referenceAdd, Nat.add_comm, referenceAdd]

/-- R114: the difference modulo `2^w`, formed without leaving the naturals. -/
theorem referenceSub_number {w b : Nat} (a : Nat) (hb : b ≤ 2 ^ w) :
    (referenceSub w a b).1 = (2 ^ w + a - b) % 2 ^ w := by
  have hcast : ((2 ^ w + a - b : Nat) : Int) = a - b + 2 ^ w := by
    rw [Nat.cast_sub (Nat.le_add_right_of_le hb)]
    push_cast
    ring
  have hmod : ((a : Int) - b) % 2 ^ w = ((2 ^ w + a - b) % 2 ^ w : Nat) := by
    rw [Int.natCast_mod, hcast]
    push_cast
    exact (Int.add_emod_right _ _).symm
  rw [referenceSub, hmod, Int.toNat_natCast]

/-- R119: a sum wraps exactly when the undoing subtraction borrows. -/
theorem le_add_iff_mod_lt {m a b : Nat} (ha : a < m) (hb : b < m) : m ≤ a + b ↔ (a + b) % m < b := by
  by_cases hm : m ≤ a + b
  · rw [Nat.mod_eq_sub_mod hm, Nat.mod_eq_of_lt (by omega)]
    omega
  · rw [Nat.mod_eq_of_lt (by omega)]
    omega

/-! ### Every instruction agrees with the reference -/

/-- R111: the adder's chain meets the contract of ADD. -/
theorem addChain_reference {n : Nat} {a b : Value} (ha : a.length = n) (hb : b.length = n) :
    (val (addChain false a b).1, (addChain false a b).2) = referenceAdd (64 * n) (val a) (val b) := by
  obtain ⟨hlen, hsum⟩ := addChain_spec false a b (ha.trans hb.symm)
  have hlt := val_lt_of_length (hlen.trans ha)
  rw [ha, Bool.toNat_false, Nat.add_zero] at hsum
  rw [referenceAdd, ← hsum, Nat.add_mul_mod_self_left, Nat.mod_eq_of_lt hlt, add_mul_div_of_lt hlt]
  cases (addChain false a b).2 <;> rfl

/-- R115: the borrow of the subtractor's chain. -/
theorem subChain_borrow {a b : Value} (h : a.length = b.length) :
    (subChain false a b).2 = decide (val a < val b) := by
  obtain ⟨hlen, hdiff⟩ := subChain_spec false a b h
  have hr := val_lt_of_length hlen
  have hb := val_lt_of_length h.symm
  rw [Bool.toNat_false, Nat.add_zero] at hdiff
  cases hbw : (subChain false a b).2 with
  | false =>
    rw [hbw, Bool.toNat_false, Nat.mul_zero] at hdiff
    exact (decide_eq_false (by omega)).symm
  | true =>
    rw [hbw, Bool.toNat_true, Nat.mul_one] at hdiff
    exact (decide_eq_true (by omega)).symm

/-- R115: the subtractor's chain meets the contract of SUB. -/
theorem subChain_reference {n : Nat} {a b : Value} (ha : a.length = n) (hb : b.length = n) :
    (val (subChain false a b).1, (subChain false a b).2) = referenceSub (64 * n) (val a) (val b) :=
  Prod.ext ((val_subChain ha hb).trans (referenceSub_number _ (val_lt_of_length hb).le).symm)
    (subChain_borrow (ha.trans hb.symm))

@[simp] theorem notLimbs_length (b : Value) : (notLimbs b).length = b.length := List.length_map _

/-- R116: the number of the complement. -/
theorem val_notLimbs {n : Nat} {b : Value} (h : b.length = n) :
    val (notLimbs b) = 2 ^ (64 * n) - 1 - val b :=
  Nat.eq_sub_of_add_eq (h ▸ val_map_not b)

/-- R155: the count fits in one limb. -/
theorem val_clz_limb (cfg : Config) {a : Value} (ha : a.length = cfg.limbs) :
    val [BitVec.ofNat 64 (clz a)] = referenceClz cfg.width (val a) := by
  have hcount : clz a = referenceClz cfg.width (val a) := by
    rw [clz_spec, ha]
    rfl
  have hlt : referenceClz cfg.width (val a) < 2 ^ 64 :=
    (leadingZeros_le cfg.width (val a)).trans_lt cfg.width_lt
  rw [hcount, val_cons, val_nil, BitVec.toNat_ofNat, Nat.mod_eq_of_lt hlt, Nat.mul_zero, Nat.add_zero]

/-- R120, R200: the result limbs stand for the number, and the flag is the one, that the contract of the
operation gives. -/
theorem result_reference (cfg : Config) {i : Instr} (h : i.wf cfg.limbs = true) :
    (val (result cfg.cap cfg.limbs i).1, (result cfg.cap cfg.limbs i).2) = reference cfg.width i := by
  obtain ⟨ha, hb⟩ := wf_iff.mp h
  have hab := ha.trans hb.symm
  cases i with
  | mulfull o => exact congrArg (·, false) (mulFull_spec cfg.cap (operandX o) (operandY o))
  | add o => exact addChain_reference ha hb
  | sub o => exact subChain_reference ha hb
  | not o => exact congrArg (·, false) (val_notLimbs ha)
  | and o => exact congrArg (·, false) (val_zipWith_and hab)
  | or o => exact congrArg (·, false) (val_zipWith_or hab)
  | xor o => exact congrArg (·, false) (val_zipWith_xor hab)
  | clz o => exact congrArg (·, false) (val_clz_limb cfg ha)
  | shl o => exact congrArg (·, false) (val_shlLimbs cfg.limbs o.a (amount o))
  | lsr o => exact congrArg (·, false) (val_lsrLimbs ha (amount o))
  | mul o => exact congrArg (·, false) ((val_take _ _).trans
      (congrArg (· % 2 ^ cfg.width) (val_fullProduct cfg.cap ha hb)))
  | mulx o => exact congrArg (·, false) (val_fullProduct cfg.cap ha hb)

/-- The number of the reference is that of a result of at most `2N` limbs. -/
theorem reference_lt (cfg : Config) {i : Instr} (h : i.wf cfg.limbs = true) :
    (reference cfg.width i).1 < 2 ^ (2 * cfg.width) := by
  rw [← result_reference cfg h]
  have hlen := result_length_le (cap := cfg.cap) cfg.limbs_pos h
  exact (val_lt _).trans_le (Nat.pow_le_pow_right Nat.two_pos (by rw [Config.width]; omega))

/-- R27: the response record of an instruction, by the reference. -/
theorem response_reference (cfg : Config) {i : Instr} (h : i.wf cfg.limbs = true) :
    (⟨extend cfg.limbs (result cfg.cap cfg.limbs i).1, (result cfg.cap cfg.limbs i).2⟩ : Rsp) =
      ⟨limbsN (2 * cfg.limbs) (reference cfg.width i).1, (reference cfg.width i).2⟩ := by
  rw [extend_eq_limbsN (result_length_le cfg.limbs_pos h) rfl, ← result_reference cfg h]

/-- Settles O58: the response holds the result limbs and the flag, which meet the contract operation by
operation. -/
theorem everyInstructionAgreesWithTheReference :
    Obligations.EveryInstructionAgreesWithTheReference := by
  intro i s h
  refine ⟨?_, reference_lt s.cfg h⟩
  rw [exec_of_wf h, response_reference s.cfg h]
  rfl

/-- Settles O2: the number is the reference's, and its flag says that the sum does not fit. -/
theorem addDeliversSumAndCarry : Obligations.AddDeliversSumAndCarry := by
  intro o s h
  refine ⟨rfl, ?_⟩
  obtain ⟨ha, hb⟩ := wf_iff.mp h
  obtain ⟨hexec, -⟩ := everyInstructionAgreesWithTheReference (.add o) s h
  have hflag : (reference s.cfg.width (.add o)).2 = decide (2 ^ s.cfg.width ≤ val o.a + val o.b) :=
    referenceAdd_flag (val_lt_of_length ha) (val_lt_of_length hb)
  rw [hexec, hflag]
  rfl

/-- Settles O3: the number and the flag are the reference's. -/
theorem subDeliversDifferenceAndBorrow : Obligations.SubDeliversDifferenceAndBorrow := by
  intro o s h
  obtain ⟨hexec, -⟩ := everyInstructionAgreesWithTheReference (.sub o) s h
  exact ⟨rfl, hexec⟩

/-! ### The other circuits (R112, R115, R116) -/

/-- Settles O36, by induction along the two sequences, each limb by the agreement of the two forms. -/
theorem sixtyFourBitAdderIsTheChain : Obligations.SixtyFourBitAdderIsTheChain := by
  refine ⟨fun c a b => ?chain, fun a b c => ?carries⟩
  case chain =>
    induction a generalizing c b with
    | nil => rfl
    | cons x xs ih =>
      cases b with
      | nil => rfl
      | cons y ys =>
        obtain ⟨hlimb, hcarry, -⟩ := addStep64_spec x y c
        simp only [addChain64, addChain, hlimb, hcarry, ih]
  case carries =>
    obtain ⟨-, -, hboth⟩ := addStep64_spec a b c
    rw [← Bool.and_eq_true, hboth]
    exact Bool.false_ne_true

theorem borrowBit_iff (d : Int) : borrowBit d = true ↔ d < 0 := decide_eq_true_iff

/-- R115: one limb's subtraction in 64-bit values is the integer one modulo `2^64`, and at most one of
`b1`, `b2` is 1. -/
theorem subStep64_spec (a b : Limb) (bw : Bool) :
    (subStep64 a b bw).1 = BitVec.ofInt 64 (difference a b bw) ∧
    ((subStep64 a b bw).2.1 || (subStep64 a b bw).2.2) = borrowBit (difference a b bw) ∧
    ((subStep64 a b bw).2.1 && (subStep64 a b bw).2.2) = false := by
  have ha := a.isLt
  have hb := b.isLt
  have hz : ((BitVec.ofBool bw).zeroExtend 64).toNat = bw.toNat := by cases bw <;> rfl
  have hbw := Bool.toNat_le bw
  refine ⟨?limb, ?borrow, ?notBoth⟩
  case limb =>
    have hd := ofInt_toNat (difference a b bw)
    apply BitVec.eq_of_toNat_eq
    simp only [subStep64, BitVec.toNat_sub, hz, difference] at hd ⊢
    omega
  case borrow =>
    rw [Bool.eq_iff_iff]
    simp only [subStep64, borrowBit_iff, difference, BitVec.lt_def, BitVec.toNat_sub, hz,
      Bool.or_eq_true, decide_eq_true_iff]
    omega
  case notBoth =>
    simp only [subStep64, BitVec.lt_def, BitVec.toNat_sub, hz, Bool.and_eq_false_iff,
      decide_eq_false_iff_not]
    omega

/-- Settles O37, by induction along the two sequences, each limb by the agreement of the two forms. -/
theorem sixtyFourBitSubtractorIsTheChain : Obligations.SixtyFourBitSubtractorIsTheChain := by
  refine ⟨fun bw a b => ?chain, fun a b bw => ?borrows⟩
  case chain =>
    induction a generalizing bw b with
    | nil => rfl
    | cons x xs ih =>
      cases b with
      | nil => rfl
      | cons y ys =>
        obtain ⟨hlimb, hborrow, -⟩ := subStep64_spec x y bw
        simp only [subChain64, subChain, hlimb, hborrow, ih]
  case borrows =>
    obtain ⟨-, -, hboth⟩ := subStep64_spec a b bw
    rw [← Bool.and_eq_true, hboth]
    exact Bool.false_ne_true

theorem boolToNat_injective : Function.Injective Bool.toNat := by decide

/-- A flag and its inverse weigh as much as one set flag. -/
theorem mul_toNat_add_mul_not_toNat (p : Nat) (c : Bool) : p * c.toNat + p * (!c).toNat = p := by
  cases c <;> simp

/-- R116: `a + NOT b + 1` gives the limbs of the borrow chain and the inverse of its borrow, since both
stand for `a - b + 2^W`. -/
theorem subByComplement_eq {a b : Value} (h : a.length = b.length) :
    subByComplement a b = ((subChain false a b).1, !(subChain false a b).2) := by
  obtain ⟨hslen, hsum⟩ := addChain_spec true a (notLimbs b) (by simpa using h)
  obtain ⟨hdlen, hdiff⟩ := subChain_spec false a b h
  have hb := val_lt_of_length h.symm
  have hflag := mul_toNat_add_mul_not_toNat (2 ^ (64 * a.length)) (subChain false a b).2
  rw [val_notLimbs h.symm, Bool.toNat_true] at hsum
  rw [Bool.toNat_false] at hdiff
  obtain ⟨hval, hcarry⟩ := add_mul_unique (j := (addChain true a (notLimbs b)).2.toNat)
    (k := (!(subChain false a b).2).toNat) (val_lt_of_length hslen) (val_lt_of_length hdlen) (by omega)
  exact Prod.ext (val_inj (hslen.trans hdlen.symm) hval) (boolToNat_injective hcarry)

/-- R116: the two passes together stand for `a - b + 2^W`. -/
theorem subByTwoPasses_spec {a b : Value} (h : a.length = b.length) (hne : a ≠ []) :
    (subByTwoPasses a b).1.length = a.length ∧
    val (subByTwoPasses a b).1 + 2 ^ (64 * a.length) *
      ((subByTwoPasses a b).2.1.toNat + (subByTwoPasses a b).2.2.toNat) + val b =
      val a + 2 ^ (64 * a.length) := by
  obtain ⟨hplen, hpass⟩ := addChain_spec false a (notLimbs b) (by simpa using h)
  have hone : val (limbsN (addChain false a (notLimbs b)).1.length 1) = 1 :=
    val_valueOne (hplen ▸ List.length_pos_of_ne_nil hne)
  obtain ⟨hqlen, hpass'⟩ := addChain_spec false (addChain false a (notLimbs b)).1
    (limbsN (addChain false a (notLimbs b)).1.length 1) (limbsN_length _ _).symm
  have hb := val_lt_of_length h.symm
  refine ⟨hqlen.trans hplen, ?_⟩
  rw [hone, hplen] at hpass'
  rw [val_notLimbs h.symm] at hpass
  simp only [subByTwoPasses, Nat.mul_add, hplen, Bool.toNat_false] at hpass hpass' ⊢
  omega

/-- One set flag among three: the first two are not both set, and the third is the inverse of either. -/
theorem flags_of_sum_eq_one : ∀ c₁ c₂ bw : Bool, c₁.toNat + c₂.toNat + bw.toNat = 1 →
    ¬ (c₁ = true ∧ c₂ = true) ∧ bw = !(c₁ || c₂) := by
  decide

/-- R116: the two passes give the limbs of the borrow chain, and one of their carries and its borrow is
set. -/
theorem subByTwoPasses_eq {a b : Value} (h : a.length = b.length) (hne : a ≠ []) :
    (subByTwoPasses a b).1 = (subChain false a b).1 ∧
    (subByTwoPasses a b).2.1.toNat + (subByTwoPasses a b).2.2.toNat +
      (subChain false a b).2.toNat = 1 := by
  obtain ⟨hqlen, hpasses⟩ := subByTwoPasses_spec h hne
  obtain ⟨hdlen, hdiff⟩ := subChain_spec false a b h
  rw [Bool.toNat_false] at hdiff
  obtain ⟨hval, hflags⟩ := add_mul_unique (k := 1) (val_lt_of_length hqlen) (val_lt_of_length hdlen)
    (j := (subByTwoPasses a b).2.1.toNat + (subByTwoPasses a b).2.2.toNat + (subChain false a b).2.toNat)
    (by rw [Nat.mul_add]; omega)
  exact ⟨val_inj (hqlen.trans hdlen.symm) hval, hflags⟩

/-- Settles O38: the three forms stand for one number; without limbs the passes carry nothing. -/
theorem twosComplementSubtractorIsTheChain : Obligations.TwosComplementSubtractorIsTheChain := by
  intro a b h
  refine ⟨val_notLimbs rfl, subByComplement_eq h, ?_⟩
  cases a with
  | nil =>
    obtain rfl : b = [] := List.length_eq_zero_iff.mp h.symm
    exact ⟨rfl, by decide, fun hne => absurd rfl hne⟩
  | cons x xs =>
    obtain ⟨hlimbs, hflags⟩ := subByTwoPasses_eq h (List.cons_ne_nil x xs)
    obtain ⟨hnotBoth, hborrow⟩ := flags_of_sum_eq_one _ _ _ hflags
    exact ⟨hlimbs, hnotBoth, fun _ => hborrow⟩

/-! ### The laws of ADD and SUB, on the responses `exec_N` gives (R117 to R119) -/

/-- R14 with R120: `exec_N` of a command of the block, by the reference. -/
theorem execN_reference {cfg : Config} {c : Cmd} {i : Instr} (hd : decodeCmd c = .ok i)
    (hw : i.wf cfg.limbs = true) :
    execN cfg c =
      some ⟨limbsN (2 * cfg.limbs) (reference cfg.width i).1, (reference cfg.width i).2⟩ := by
  rw [execN_of_wf hd hw, response_reference cfg hw]

theorem execLo_reference {cfg : Config} {c : Cmd} {i : Instr} (hd : decodeCmd c = .ok i)
    (hw : i.wf cfg.limbs = true) :
    execLo cfg c = some (limbsN cfg.limbs (reference cfg.width i).1) := by
  rw [execLo, execN_reference hd hw, Option.map_some, rLo_limbsN]

theorem execN_add {cfg : Config} {a b : Value} (ha : a.length = cfg.limbs) (hb : b.length = cfg.limbs)
    (sh : BitVec 64) : execN cfg ⟨0x1, a, b, sh⟩ =
      some ⟨limbsN (2 * cfg.limbs) (referenceAdd cfg.width (val a) (val b)).1,
        (referenceAdd cfg.width (val a) (val b)).2⟩ :=
  execN_reference (i := .add ⟨a, b, sh⟩) rfl (wf_iff.mpr ⟨ha, hb⟩)

theorem execN_sub {cfg : Config} {a b : Value} (ha : a.length = cfg.limbs) (hb : b.length = cfg.limbs)
    (sh : BitVec 64) : execN cfg ⟨0x2, a, b, sh⟩ =
      some ⟨limbsN (2 * cfg.limbs) (referenceSub cfg.width (val a) (val b)).1,
        (referenceSub cfg.width (val a) (val b)).2⟩ :=
  execN_reference (i := .sub ⟨a, b, sh⟩) rfl (wf_iff.mpr ⟨ha, hb⟩)

/-- The residue modulo `2^(64·n)` a value of `n` limbs stands for. -/
def residue (n : Nat) (a : Value) : ZMod (2 ^ (64 * n)) := (val a : ZMod (2 ^ (64 * n)))

@[simp] theorem residue_limbsN (n v : Nat) : residue n (limbsN n v) = (v : ZMod (2 ^ (64 * n))) := by
  rw [residue, val_limbsN, ZMod.natCast_mod]

/-- R12: the values of `n` limbs are the residues modulo `2^(64·n)`. -/
theorem limbsN_eq_iff_residue {n v : Nat} {x : Value} (hx : x.length = n) :
    limbsN n v = x ↔ (v : ZMod (2 ^ (64 * n))) = residue n x := by
  refine ⟨fun h => by rw [← h, residue_limbsN], fun h => ?_⟩
  rw [residue, ZMod.natCast_eq_natCast_iff'] at h
  rw [← limbsN_mod, h, limbsN_mod, ← eq_limbsN hx rfl]

theorem exists_value_of_residue (n : Nat) (z : ZMod (2 ^ (64 * n))) :
    ∃ x : Value, x.length = n ∧ residue n x = z :=
  ⟨limbsN n z.val, limbsN_length _ _, by rw [residue_limbsN, ZMod.natCast_zmod_val]⟩

/-- R110 on `r_lo`: ADD adds residues. -/
theorem execLo_add {cfg : Config} {a b x : Value} (ha : a.length = cfg.limbs)
    (hb : b.length = cfg.limbs) (hx : x.length = cfg.limbs)
    (h : residue cfg.limbs x = residue cfg.limbs a + residue cfg.limbs b) (sh : BitVec 64) :
    execLo cfg ⟨0x1, a, b, sh⟩ = some x := by
  rw [execLo_reference (i := .add ⟨a, b, sh⟩) rfl (wf_iff.mpr ⟨ha, hb⟩), Option.some_inj,
    limbsN_eq_iff_residue hx, h]
  simp [reference, referenceAdd, residue]

/-- R114 on `r_lo`: SUB subtracts residues. -/
theorem execLo_sub {cfg : Config} {a b x : Value} (ha : a.length = cfg.limbs)
    (hb : b.length = cfg.limbs) (hx : x.length = cfg.limbs)
    (h : residue cfg.limbs x = residue cfg.limbs a - residue cfg.limbs b) (sh : BitVec 64) :
    execLo cfg ⟨0x2, a, b, sh⟩ = some x := by
  have hle : val b ≤ 2 ^ cfg.width := (val_lt_of_length hb).le
  have hnum : (reference cfg.width (.sub ⟨a, b, sh⟩)).1 =
      (2 ^ cfg.width + val a - val b) % 2 ^ cfg.width :=
    referenceSub_number (val a) hle
  rw [execLo_reference (i := .sub ⟨a, b, sh⟩) rfl (wf_iff.mpr ⟨ha, hb⟩), Option.some_inj,
    limbsN_eq_iff_residue hx, h, hnum, ZMod.natCast_mod, Nat.cast_sub (Nat.le_add_right_of_le hle),
    Nat.cast_add, ZMod.natCast_self, zero_add]
  rfl

/-- Settles O43, by the group of residues. -/
theorem addSubRoundTrip : Obligations.AddSubRoundTrip := by
  intro cfg a b h1 h2 ha hb
  obtain ⟨x, hx, hsum⟩ := exists_value_of_residue cfg.limbs
    (residue cfg.limbs a + residue cfg.limbs b)
  obtain ⟨y, hy, hdiff⟩ := exists_value_of_residue cfg.limbs
    (residue cfg.limbs a - residue cfg.limbs b)
  exact ⟨⟨x, execLo_add ha hb hx hsum h1, execLo_sub hx hb ha (eq_sub_of_add_eq hsum.symm) h2,
      execLo_sub hx ha hb (eq_sub_of_add_eq' hsum.symm) h2⟩,
    ⟨y, execLo_sub ha hb hy hdiff h1, execLo_add hy hb ha (sub_eq_iff_eq_add.mp hdiff.symm) h2⟩⟩

@[simp] theorem residue_valueZero (n : Nat) : residue n (valueZero n) = 0 := by
  rw [residue, val_valueZero, Nat.cast_zero]

/-- Settles O44: the responses commute with their sums, the laws in `r_lo` hold in the group of residues,
and a sum wraps exactly when the undoing subtraction borrows. -/
theorem addSubLaws : Obligations.AddSubLaws := by
  intro cfg a b c ha hb hc
  obtain ⟨ab, hab, rab⟩ := exists_value_of_residue cfg.limbs
    (residue cfg.limbs a + residue cfg.limbs b)
  obtain ⟨bc, hbc, rbc⟩ := exists_value_of_residue cfg.limbs
    (residue cfg.limbs b + residue cfg.limbs c)
  obtain ⟨abc, habc, rabc⟩ := exists_value_of_residue cfg.limbs
    (residue cfg.limbs a + residue cfg.limbs b + residue cfg.limbs c)
  obtain ⟨nb, hnb, rnb⟩ := exists_value_of_residue cfg.limbs (-residue cfg.limbs b)
  obtain ⟨d, hd, rd⟩ := exists_value_of_residue cfg.limbs
    (residue cfg.limbs a - residue cfg.limbs b)
  have hzero : (valueZero cfg.limbs).length = cfg.limbs := limbsN_length _ _
  refine ⟨?comm, ⟨ab, bc, abc, execLo_add ha hb hab rab 0, execLo_add hb hc hbc rbc 0,
      execLo_add hab hc habc (by rw [rabc, rab]) 0,
      execLo_add ha hbc habc (by rw [rabc, rbc, add_assoc]) 0⟩,
    ⟨nb, d, execLo_sub hzero hb hnb (by rw [rnb, residue_valueZero, zero_sub]) 0,
      execLo_sub ha hb hd rd 0, execLo_add ha hnb hd (by rw [rd, rnb, sub_eq_add_neg]) 0⟩, ?cout⟩
  case comm => rw [execN_add ha hb, execN_add hb ha, referenceAdd_comm]
  case cout =>
    refine ⟨_, _, execN_add ha hb 0, execN_sub (by rw [rLo_limbsN, limbsN_length]) hb 0, ?_⟩
    rw [rLo_limbsN, val_limbsN, referenceAdd_flag (val_lt_of_length ha) (val_lt_of_length hb)]
    simp only [referenceAdd, referenceSub, Nat.mod_mod, decide_eq_decide]
    exact le_add_iff_mod_lt (val_lt_of_length ha) (val_lt_of_length hb)

/-- Settles O45: both forms give the number `2^W - val b` modulo `2^W`; SUB borrows for every number but
zero, and ADD carries out for zero alone. -/
theorem negationLaws : Obligations.NegationLaws := by
  intro cfg b hb
  have hzero : (valueZero cfg.limbs).length = cfg.limbs := limbsN_length _ _
  have hone : (valueOne cfg.limbs).length = cfg.limbs := limbsN_length _ _
  have hnot : (notLimbs b).length = cfg.limbs := (notLimbs_length b).trans hb
  have hlt := val_lt_of_length hb
  have hsucc : val (notLimbs b) + 1 = 2 ^ (64 * cfg.limbs) - val b := by
    rw [val_notLimbs hb]
    omega
  have hsub : (referenceSub cfg.width (val (valueZero cfg.limbs)) (val b)).1 =
      (2 ^ cfg.width - val b) % 2 ^ cfg.width := by
    rw [referenceSub_number _ hlt.le, val_valueZero, Nat.add_zero]
  have hadd : (referenceAdd cfg.width (val (notLimbs b)) (val (valueOne cfg.limbs))).1 =
      (2 ^ cfg.width - val b) % 2 ^ cfg.width := by
    rw [referenceAdd, val_valueOne cfg.limbs_pos, hsucc]
  refine ⟨notLimbs b, _, _, execN_sub hzero hb 0,
    execLo_encodeCmd (i := .not ⟨b, b, 0⟩) (wf_iff.mpr ⟨hb, hb⟩) rfl, execN_add hnot hone 0,
    ?same, ?number, ?borrow, ?carry⟩
  case same => rw [rLo_limbsN, rLo_limbsN, hsub, hadd]
  case number => rw [rLo_limbsN, hsub, val_limbsN, Nat.mod_mod]
  case borrow => simp [referenceSub, val_valueZero, Nat.pos_iff_ne_zero]
  case carry =>
    rw [referenceAdd_flag (val_lt_of_length hnot) (val_lt_of_length hone), decide_eq_true_iff,
      val_valueOne cfg.limbs_pos, hsucc]
    omega

end Machine

end Sys2Proof
end

section
/-! SUPPORT and settlements of the family 42_bitwise.md: the contracts of NOT, AND, OR and XOR (R130 to
R133), which are the reference's; their limbs (R134); the addressable bits (R135); and the laws with the
adder (R136), which hold of all natural numbers. -/

namespace Sys2Proof

/-! ### Bitwise operations and sums of numbers -/

/-- R136: the exclusive or is the sum without the carries, and the conjunction is the carries. By induction
on the binary digits. -/
theorem xor_add_two_mul_and (a b : Nat) : (a ^^^ b) + 2 * (a &&& b) = a + b := by
  induction a using Nat.div2Induction generalizing b with
  | ind a ih =>
    rcases a.eq_zero_or_pos with rfl | hpos
    · simp
    · have hhigh := ih hpos (b / 2)
      rw [← Nat.xor_div_two, ← Nat.and_div_two] at hhigh
      have hxor := Nat.xor_mod_two_eq (m := a) (n := b)
      have hand := Nat.and_mod_two_eq_one (a := a) (b := b)
      omega

/-- R136: a bit set in both operands counts once in the disjunction and once in the conjunction. -/
theorem or_add_and (a b : Nat) : (a ||| b) + (a &&& b) = a + b := by
  have hor : (a ^^^ b) ^^^ (a &&& b) = a ||| b := Nat.eq_of_testBit_eq fun k => by
    simp only [Nat.testBit_xor, Nat.testBit_and, Nat.testBit_or]
    cases a.testBit k <;> cases b.testBit k <;> rfl
  have hdisjoint : (a ^^^ b) &&& (a &&& b) = 0 := Nat.eq_of_testBit_eq fun k => by
    simp only [Nat.testBit_xor, Nat.testBit_and, Nat.zero_testBit]
    cases a.testBit k <;> cases b.testBit k <;> rfl
  have hsplit := xor_add_two_mul_and (a ^^^ b) (a &&& b)
  have hsum := xor_add_two_mul_and a b
  rw [hor, hdisjoint] at hsplit
  omega

namespace Machine

/-! ### The contracts (R130 to R133) -/

/-- Settles O4: the number is the reference's. -/
theorem notDeliversComplement : Obligations.NotDeliversComplement := fun o s h =>
  ⟨rfl, (everyInstructionAgreesWithTheReference (.not o) s h).1⟩

/-- Settles O5: the number is the reference's. -/
theorem andDeliversConjunction : Obligations.AndDeliversConjunction := fun o s h =>
  ⟨rfl, (everyInstructionAgreesWithTheReference (.and o) s h).1⟩

/-- Settles O6: the number is the reference's. -/
theorem orDeliversDisjunction : Obligations.OrDeliversDisjunction := fun o s h =>
  ⟨rfl, (everyInstructionAgreesWithTheReference (.or o) s h).1⟩

/-- Settles O7: the number is the reference's. -/
theorem xorDeliversExclusiveOr : Obligations.XorDeliversExclusiveOr := fun o s h =>
  ⟨rfl, (everyInstructionAgreesWithTheReference (.xor o) s h).1⟩

/-! ### The `r_lo` of the bitwise operations and of SHL -/

section

variable {cfg : Config} {a b : Value}

theorem execLo_not (ha : a.length = cfg.limbs) (hb : b.length = cfg.limbs) (sh : BitVec 64) :
    execLo cfg ⟨0x3, a, b, sh⟩ = some (notLimbs a) :=
  execLo_encodeCmd (i := .not ⟨a, b, sh⟩) (wf_iff.mpr ⟨ha, hb⟩) rfl

theorem execLo_and (ha : a.length = cfg.limbs) (hb : b.length = cfg.limbs) (sh : BitVec 64) :
    execLo cfg ⟨0x4, a, b, sh⟩ = some (List.zipWith (fun x y => x &&& y) a b) :=
  execLo_encodeCmd (i := .and ⟨a, b, sh⟩) (wf_iff.mpr ⟨ha, hb⟩) rfl

theorem execLo_or (ha : a.length = cfg.limbs) (hb : b.length = cfg.limbs) (sh : BitVec 64) :
    execLo cfg ⟨0x5, a, b, sh⟩ = some (List.zipWith (fun x y => x ||| y) a b) :=
  execLo_encodeCmd (i := .or ⟨a, b, sh⟩) (wf_iff.mpr ⟨ha, hb⟩) rfl

theorem execLo_xor (ha : a.length = cfg.limbs) (hb : b.length = cfg.limbs) (sh : BitVec 64) :
    execLo cfg ⟨0x6, a, b, sh⟩ = some (List.zipWith (fun x y => x ^^^ y) a b) :=
  execLo_encodeCmd (i := .xor ⟨a, b, sh⟩) (wf_iff.mpr ⟨ha, hb⟩) rfl

theorem execLo_shl (ha : a.length = cfg.limbs) (hb : b.length = cfg.limbs) (sh : BitVec 64) :
    execLo cfg ⟨0x8, a, b, sh⟩ = some (shlLimbs cfg.limbs a sh.toNat) :=
  execLo_encodeCmd (i := .shl ⟨a, b, sh⟩) (wf_iff.mpr ⟨ha, hb⟩) rfl

end

/-! ### Limbs, bit positions, and the adder (R134 to R136) -/

theorem limb_notLimbs {a : Value} {i : Nat} (hi : i < a.length) :
    limb (notLimbs a) i = ~~~limb a i := by
  simp [limb, notLimbs, hi]

/-- Settles O46: limb `i` of a result is the operation on limbs `i`, which acts on each bit alone. -/
theorem bitwiseHasNoCrossLimbInteraction : Obligations.BitwiseHasNoCrossLimbInteraction := by
  intro cfg a b h ha hb
  have hab : a.length = b.length := ha.trans hb.symm
  refine ⟨_, _, _, _, execLo_not ha hb h, execLo_and ha hb h, execLo_or ha hb h, execLo_xor ha hb h,
    fun i k hi hk => ⟨?not, ?and, ?or, ?xor⟩⟩
  case not => rw [limb_notLimbs (ha ▸ hi), BitVec.getLsbD_not, decide_eq_true hk, Bool.true_and]
  case and => rw [limb_zipWith _ hab (by decide), BitVec.getLsbD_and]
  case or => rw [limb_zipWith _ hab (by decide), BitVec.getLsbD_or]
  case xor => rw [limb_zipWith _ hab (by decide), BitVec.getLsbD_xor]

/-- Settles O47: the conjunction with `2^W - 1`, which is NOT of zero, keeps every number below `2^W`. -/
theorem everyBitPositionIsAddressable : Obligations.EveryBitPositionIsAddressable := by
  intro cfg k hk
  have hone : (valueOne cfg.limbs).length = cfg.limbs := limbsN_length _ _
  have hzero : (valueZero cfg.limbs).length = cfg.limbs := limbsN_length _ _
  have hnot : (notLimbs (valueZero cfg.limbs)).length = cfg.limbs := (notLimbs_length _).trans hzero
  have hamount : (BitVec.ofNat 64 k).toNat = k := Nat.mod_eq_of_lt (hk.trans cfg.width_lt)
  have hpow : 2 ^ k % 2 ^ (64 * cfg.limbs) = 2 ^ k :=
    Nat.mod_eq_of_lt (Nat.pow_lt_pow_right Nat.one_lt_two hk)
  obtain ⟨p, hlen, hval, hshl⟩ : ∃ p, p.length = cfg.limbs ∧ val p = 2 ^ k ∧
      execLo cfg ⟨0x8, valueOne cfg.limbs, valueZero cfg.limbs, BitVec.ofNat 64 k⟩ = some p := by
    refine ⟨_, shlLimbs_length _ _ _, ?_, execLo_shl hone hzero _⟩
    rw [hamount, val_shlLimbs, if_pos hk, val_valueOne cfg.limbs_pos, Nat.one_mul, hpow]
  refine ⟨p, _, _, hshl, execLo_not hzero hzero 0, execLo_and hlen hnot 0, ?_⟩
  rw [val_zipWith_and (hlen.trans hnot.symm), hval, val_notLimbs hzero, val_valueZero, Nat.sub_zero,
    Nat.and_two_pow_sub_one_eq_mod, hpow]

/-- Settles O48: the number laws on the values, and R117 for the negation. -/
theorem bitwiseAdderLaws : Obligations.BitwiseAdderLaws := by
  intro cfg a b ha hb
  have hab : a.length = b.length := ha.trans hb.symm
  obtain ⟨n, p, q, hneg, hnot, hsucc, hsame, -⟩ := negationLaws cfg a ha
  obtain rfl : notLimbs a = n := Option.some.inj ((execLo_not ha ha 0).symm.trans hnot)
  refine ⟨_, _, _, _, rLo cfg.limbs p, execLo_not ha hb 0, execLo_and ha hb 0, execLo_or ha hb 0,
    execLo_xor ha hb 0, congrArg (Option.map _) hneg, ?complement, ?xor, ?or, ?negation⟩
  case complement => rw [Nat.add_comm, notLimbs, val_map_not, ha]
  case xor => rw [val_zipWith_xor hab, val_zipWith_and hab, xor_add_two_mul_and]
  case or => rw [val_zipWith_or hab, val_zipWith_and hab, or_add_and]
  case negation => rw [execLo, hsucc, Option.map_some, hsame]

end Machine

end Sys2Proof
end

section
/-! SUPPORT and settlements of the family 43_clz.md: the count of the reference in terms of powers of two
(R150, R153), the bit-halving search (R151), the response of CLZ (R155), and the laws with the shifts
(R157). -/

namespace Sys2Proof.Machine

/-! ### The number of leading zeros of a number of `w` bits -/

section

variable {w v k : Nat}

theorem leadingZeros_zero (w : Nat) : leadingZeros w 0 = w := if_pos rfl

theorem leadingZeros_of_ne_zero (hv : v ≠ 0) : leadingZeros w v = w - 1 - Nat.log2 v := if_neg hv

theorem leadingZeros_of_two_pow_le {m : Nat} (hlo : 2 ^ m ≤ v) (hhi : v < 2 ^ (m + 1)) :
    leadingZeros w v = w - 1 - m := by
  have hv : v ≠ 0 := ((Nat.two_pow_pos m).trans_le hlo).ne'
  rw [leadingZeros_of_ne_zero hv, (Nat.log2_eq_iff hv).mpr ⟨hlo, hhi⟩]

/-- The count is at least `k` exactly when the `k` highest bits are zero. -/
theorem le_leadingZeros_iff (hv : v < 2 ^ w) (hk : k ≤ w) :
    k ≤ leadingZeros w v ↔ v < 2 ^ (w - k) := by
  rcases eq_or_ne v 0 with rfl | h0
  · simp [leadingZeros_zero, hk]
  · have hlog := (Nat.log2_lt h0).mpr hv
    rw [leadingZeros_of_ne_zero h0, ← Nat.log2_lt h0]
    omega

theorem lt_two_pow_sub_leadingZeros (hv : v < 2 ^ w) : v < 2 ^ (w - leadingZeros w v) :=
  (le_leadingZeros_iff hv (leadingZeros_le w v)).mp le_rfl

theorem two_pow_sub_leadingZeros_le (h0 : v ≠ 0) : 2 ^ (w - 1 - leadingZeros w v) ≤ v := by
  have hexp : w - 1 - leadingZeros w v ≤ Nat.log2 v := by
    rw [leadingZeros_of_ne_zero h0]
    omega
  exact (Nat.pow_le_pow_right Nat.two_pos hexp).trans (Nat.log2_self_le h0)

theorem leadingZeros_lt (hv : v < 2 ^ w) (h0 : v ≠ 0) : leadingZeros w v < w := by
  have hlog := (Nat.log2_lt h0).mpr hv
  rw [leadingZeros_of_ne_zero h0]
  omega

/-- A left shift by at most the count loses no bit. -/
theorem mul_two_pow_lt (hv : v < 2 ^ w) (hk : k ≤ leadingZeros w v) : v * 2 ^ k < 2 ^ w := by
  have hkw : k ≤ w := hk.trans (leadingZeros_le w v)
  calc v * 2 ^ k < 2 ^ (w - k) * 2 ^ k :=
        Nat.mul_lt_mul_of_pos_right ((le_leadingZeros_iff hv hkw).mp hk) (Nat.two_pow_pos k)
    _ = 2 ^ w := by rw [← Nat.pow_add, Nat.sub_add_cancel hkw]

theorem leadingZeros_mul_two_pow (h0 : v ≠ 0) (k : Nat) :
    leadingZeros w (v * 2 ^ k) = leadingZeros w v - k := by
  have hlog : Nat.log2 (v * 2 ^ k) = k + Nat.log2 v := by
    simpa [Nat.mul_comm] using log2_high (Nat.two_pow_pos k) h0
  rw [leadingZeros_of_ne_zero (Nat.mul_ne_zero h0 (Nat.two_pow_pos k).ne'), hlog,
    leadingZeros_of_ne_zero h0]
  omega

/-- A nonzero number shifted left by its count has its highest bit set. -/
theorem testBit_mul_two_pow_leadingZeros (hv : v < 2 ^ w) (h0 : v ≠ 0) :
    (v * 2 ^ leadingZeros w v).testBit (w - 1) = true := by
  have hlt := leadingZeros_lt hv h0
  have hexp : w - 1 - leadingZeros w v + 1 = w - leadingZeros w v := by omega
  have hhi : v < 2 ^ (w - 1 - leadingZeros w v + 1) := hexp ▸ lt_two_pow_sub_leadingZeros hv
  rw [Nat.testBit_mul_two_pow, decide_eq_true (Nat.le_sub_one_of_lt hlt), Bool.true_and]
  exact Nat.testBit_of_two_pow_le_and_two_pow_add_one_gt (two_pow_sub_leadingZeros_le h0) hhi

/-- A right shift adds its amount to the count, up to the width. -/
theorem leadingZeros_div_two_pow (hv : v < 2 ^ w) (s : Nat) :
    leadingZeros w (v / 2 ^ s) = min w (leadingZeros w v + s) := by
  rcases eq_or_ne v 0 with rfl | h0
  · simp [leadingZeros_zero]
  have hlog := (Nat.log2_lt h0).mpr hv
  rw [leadingZeros_of_ne_zero h0]
  rcases Nat.lt_or_ge v (2 ^ s) with hs | hs
  · have hlogs := (Nat.log2_lt h0).mpr hs
    rw [Nat.div_eq_of_lt hs, leadingZeros_zero]
    omega
  · have hlogs : s ≤ Nat.log2 v := not_lt.mp fun h => ((Nat.log2_lt h0).mp h).not_ge hs
    rw [leadingZeros_of_ne_zero (Nat.div_pos hs (Nat.two_pow_pos s)).ne', Nat.log2_eq_log_two,
      Nat.log_div_base_pow, ← Nat.log2_eq_log_two]
    omega

/-- Bits added above the highest one are leading zeros. -/
theorem leadingZeros_add_width (hv : v < 2 ^ w) (d : Nat) :
    leadingZeros (d + w) v = d + leadingZeros w v := by
  rcases eq_or_ne v 0 with rfl | h0
  · simp [leadingZeros_zero]
  · have hlog := (Nat.log2_lt h0).mpr hv
    rw [leadingZeros_of_ne_zero h0, leadingZeros_of_ne_zero h0]
    omega

end

/-! ### The bit-halving search (R151) -/

/-- The test of R151: the upper `k` bits of the window are zero. -/
theorem shr64_eq_zero_iff (x : Limb) {k : Nat} (hk : k ≤ 64) :
    shr64 x (64 - k) = 0 ↔ k ≤ clz64 x := by
  rw [clz64_eq, le_leadingZeros_iff x.isLt hk, ← BitVec.toNat_inj, shr64_toNat]
  exact Nat.div_eq_zero_iff_lt (Nat.two_pow_pos _)

/-- R151: "The left shifts never lose a set bit". -/
theorem shl64_toNat_of_le_clz64 {x : Limb} {k : Nat} (hk : k ≤ clz64 x) :
    (shl64 x k).toNat = x.toNat * 2 ^ k :=
  Nat.mod_eq_of_lt (mul_two_pow_lt x.isLt (clz64_eq x ▸ hk))

/-- Between two tests of the search for the count of `x`, with `p` the part already counted and the window:
a set bit is left in the window, the two counts together are that of `x`, and fewer than `b` bits are still
to be counted. -/
structure SearchState (x : Limb) (b : Nat) (p : Nat × Limb) : Prop where
  window_ne_zero : p.2.toNat ≠ 0
  count : p.1 + clz64 p.2 = clz64 x
  remaining_lt : clz64 p.2 < b

theorem SearchState.start {x : Limb} (hx : x ≠ 0) : SearchState x 64 (0, x) where
  window_ne_zero := fun h => hx (BitVec.eq_of_toNat_eq h)
  count := Nat.zero_add _
  remaining_lt := clz64_eq x ▸ leadingZeros_lt x.isLt fun h => hx (BitVec.eq_of_toNat_eq h)

/-- One test halves what is still to be counted. -/
theorem SearchState.halve {x : Limb} {p : Nat × Limb} (k : Nat) (hk : k ≤ 64)
    (h : SearchState x (2 * k) p) : SearchState x k (halvingStep k p) := by
  obtain ⟨hne, hcount, hlt⟩ := h
  rw [halvingStep]
  split
  case isTrue hzero =>
    have hle := (shr64_eq_zero_iff p.2 hk).mp hzero
    have hshift := shl64_toNat_of_le_clz64 hle
    have hclz : clz64 (shl64 p.2 k) = clz64 p.2 - k := by
      rw [clz64_eq, hshift, leadingZeros_mul_two_pow hne, ← clz64_eq]
    exact {
      window_ne_zero := hshift ▸ Nat.mul_ne_zero hne (Nat.two_pow_pos k).ne'
      count := by rw [hclz]; omega
      remaining_lt := by rw [hclz]; omega }
  case isFalse hnonzero =>
    exact ⟨hne, hcount, not_le.mp (mt (shr64_eq_zero_iff p.2 hk).mpr hnonzero)⟩

theorem halvingStep_fst (k : Nat) (p : Nat × Limb) :
    (halvingStep k p).1 = if shr64 p.2 (64 - k) = 0 then p.1 + k else p.1 := by
  rw [halvingStep, apply_ite Prod.fst]

/-- The last test of R151 is a sixth halving step, whose window is not used. -/
theorem clz64Halving_of_ne_zero {x : Limb} (hx : x ≠ 0) :
    clz64Halving x = (halvingStep 1 (halvingStep 2 (halvingStep 4 (halvingStep 8 (halvingStep 16
      (halvingStep 32 (0, x))))))).1 := by
  rw [clz64Halving, if_neg hx]
  exact (halvingStep_fst 1 _).symm

theorem clz64Halving_eq_clz64 (x : Limb) : clz64Halving x = clz64 x := by
  by_cases hx : x = 0
  · rw [clz64Halving, if_pos hx, clz64, if_pos hx]
  · have h8 := (((SearchState.start hx).halve 32 (by decide)).halve 16 (by decide)).halve 8 (by decide)
    obtain ⟨-, hcount, hdone⟩ := ((h8.halve 4 (by decide)).halve 2 (by decide)).halve 1 (by decide)
    rw [clz64Halving_of_ne_zero hx, ← hcount, Nat.lt_one_iff.mp hdone, Nat.add_zero]

/-- Settles O39: the search by its invariant, the contract by the position of the highest set bit. -/
theorem bitHalvingCountsLeadingZeros : Obligations.BitHalvingCountsLeadingZeros :=
  ⟨clz64Halving_eq_clz64, rfl,
    fun x _ hlo hhi => (clz64_eq x).trans (leadingZeros_of_two_pow_le hlo hhi)⟩

/-! ### The operation (R155) -/

/-- Settles O8: the number is the reference's, which counts the zeros of the number above its highest bit. -/
theorem clzDeliversLeadingZeroCount : Obligations.ClzDeliversLeadingZeroCount := by
  intro o s h
  have hexec : exec (.clz o) s = .next { s with responses := s.responses ++
      [⟨limbsN (2 * s.cfg.limbs) (leadingZeros s.cfg.width (val o.a)), false⟩] } :=
    (everyInstructionAgreesWithTheReference (.clz o) s h).1
  refine ⟨rfl, fun hzero => ?zero, fun m hlo hhi => ?highest⟩
  case zero => rw [hexec, hzero, leadingZeros_zero]
  case highest => rw [hexec, leadingZeros_of_two_pow_le hlo hhi]

/-! ### The laws of the count (R157) -/

theorem clz_eq_leadingZeros {a : Value} {n : Nat} (ha : a.length = n) :
    clz a = leadingZeros (64 * n) (val a) := ha ▸ clz_spec a

/-- R157: a limb as a value of `n` limbs. -/
theorem clz_limbsN_limb {n : Nat} (hn : 0 < n) (x : Limb) :
    clz (limbsN n x.toNat) = 64 * (n - 1) + clz64 x := by
  have hlt : x.toNat < 2 ^ (64 * n) :=
    x.isLt.trans_le (Nat.pow_le_pow_right Nat.two_pos (Nat.le_mul_of_pos_right 64 hn))
  have hwidth : 64 * n = 64 * (n - 1) + 64 := by omega
  rw [clz_eq_leadingZeros (limbsN_length _ _), val_limbsN_of_lt hlt, hwidth,
    leadingZeros_add_width x.isLt, clz64_eq]

theorem execLo_lsr {cfg : Config} {a b : Value} (ha : a.length = cfg.limbs) (hb : b.length = cfg.limbs)
    (sh : BitVec 64) : execLo cfg ⟨0x9, a, b, sh⟩ = some (lsrLimbs cfg.limbs a sh.toNat) :=
  execLo_encodeCmd (i := .lsr ⟨a, b, sh⟩) (wf_iff.mpr ⟨ha, hb⟩) rfl

/-- R155: limb 0 of the response of CLZ holds the count, which fits in it. -/
theorem execN_clz {cfg : Config} {a b : Value} (ha : a.length = cfg.limbs) (hb : b.length = cfg.limbs)
    (sh : BitVec 64) :
    ∃ r, execN cfg ⟨0x7, a, b, sh⟩ = some r ∧ (limb r.r 0).toNat = clz a := by
  have hfits : clz a < 2 ^ 64 := by
    rw [clz_eq_leadingZeros ha]
    exact (leadingZeros_le _ _).trans_lt cfg.width_lt
  exact ⟨_, execN_of_wf (i := .clz ⟨a, b, sh⟩) rfl (wf_iff.mpr ⟨ha, hb⟩), Nat.mod_eq_of_lt hfits⟩

/-- Settles O49: each law is one of the count of the value's number, and the shifts are those of R171 and
R172. -/
theorem leadingZeroLaws : Obligations.LeadingZeroLaws := by
  intro cfg a ha
  have hlt : val a < 2 ^ cfg.width := val_lt_of_length ha
  have hclz : clz a = leadingZeros cfg.width (val a) := clz_eq_leadingZeros ha
  refine ⟨clz_limbsN_limb cfg.limbs_pos, fun h0 => ?normalisation, fun s hs => ?rightShift, ?upper,
    fun h0 => ?lower⟩
  case normalisation =>
    obtain ⟨r, hr, hcount⟩ := execN_clz ha ha 0
    rw [hclz] at hcount
    have hnumber : val (shlLimbs cfg.limbs a (limb r.r 0).toNat) =
        val a * 2 ^ leadingZeros cfg.width (val a) := by
      rw [hcount, val_shlLimbs, if_pos (leadingZeros_lt hlt h0),
        Nat.mod_eq_of_lt (mul_two_pow_lt hlt le_rfl)]
    refine ⟨r, _, hr, execLo_shl ha ha _, ?_, ?_⟩
    · rw [hnumber, testBit_mul_two_pow_leadingZeros hlt h0]
    · rw [hnumber, hcount]
  case rightShift =>
    refine ⟨_, execLo_lsr ha ha s, ?_⟩
    rw [clz_eq_leadingZeros (lsrLimbs_length _ _ _), val_lsrLimbs ha, if_pos hs,
      leadingZeros_div_two_pow hlt, hclz]
  case upper =>
    rw [hclz]
    exact lt_two_pow_sub_leadingZeros hlt
  case lower =>
    rw [hclz]
    exact two_pow_sub_leadingZeros_le h0

end Sys2Proof.Machine
end

section
/-! SUPPORT and settlements of the family 44_shift.md: the contracts of SHL and LSR (R171, R172), which are
the reference's; the shifts as a product and a quotient that hold for every amount; and the laws on the
responses, each a law of natural numbers (R176 to R178, R180). -/

namespace Sys2Proof.Machine

/-! ### The contracts (R171, R172) -/

/-- Settles O9: the number is the reference's. -/
theorem shlDeliversShiftedValue : Obligations.ShlDeliversShiftedValue := fun o s h =>
  ⟨rfl, (everyInstructionAgreesWithTheReference (.shl o) s h).1⟩

/-- Settles O10: the number is the reference's. -/
theorem lsrDeliversShiftedValue : Obligations.LsrDeliversShiftedValue := fun o s h =>
  ⟨rfl, (everyInstructionAgreesWithTheReference (.lsr o) s h).1⟩

/-! ### The shifted values, for every amount -/

section

variable {n : Nat} {a : Value}

/-- R171 without its case split: the product with `2^s` is a multiple of `2^W` for every `s` of `W` or
more. -/
theorem shlLimbs_eq_limbsN (n : Nat) (a : Value) (s : Nat) :
    shlLimbs n a s = limbsN n (val a * 2 ^ s) := by
  rw [← limbsN_mod]
  refine eq_limbsN (shlLimbs_length n a s) ?_
  rw [val_shlLimbs]
  split
  case isTrue => rfl
  case isFalse hs =>
    exact (Nat.mod_eq_zero_of_dvd ((Nat.pow_dvd_pow 2 (not_lt.mp hs)).mul_left (val a))).symm

/-- R172 without its case split: a number below `2^W` has the quotient zero for every `s` of `W` or more. -/
theorem lsrLimbs_eq_limbsN (ha : a.length = n) (s : Nat) :
    lsrLimbs n a s = limbsN n (val a / 2 ^ s) := by
  refine eq_limbsN (lsrLimbs_length n a s) ?_
  rw [val_lsrLimbs ha]
  split
  case isTrue => rfl
  case isFalse hs =>
    have hlt : val a < 2 ^ s :=
      (val_lt_of_length ha).trans_le (Nat.pow_le_pow_right Nat.two_pos (not_lt.mp hs))
    exact (Nat.div_eq_of_lt hlt).symm

theorem val_shlLimbs_eq_mod (n : Nat) (a : Value) (s : Nat) :
    val (shlLimbs n a s) = val a * 2 ^ s % 2 ^ (64 * n) := by
  rw [shlLimbs_eq_limbsN, val_limbsN]

theorem val_lsrLimbs_eq_div (ha : a.length = n) (s : Nat) :
    val (lsrLimbs n a s) = val a / 2 ^ s := by
  rw [lsrLimbs_eq_limbsN ha,
    val_limbsN_of_lt ((Nat.div_le_self _ _).trans_lt (val_lt_of_length ha))]

/-! ### Amount zero and amounts of `W` or more (R176, R177) -/

theorem shlLimbs_zero (ha : a.length = n) : shlLimbs n a 0 = a := by
  rw [shlLimbs_eq_limbsN, Nat.pow_zero, Nat.mul_one, ← eq_limbsN ha rfl]

theorem lsrLimbs_zero (ha : a.length = n) : lsrLimbs n a 0 = a := by
  rw [lsrLimbs_eq_limbsN ha, Nat.pow_zero, Nat.div_one, ← eq_limbsN ha rfl]

theorem shlLimbs_of_width_le {s : Nat} (hs : 64 * n ≤ s) : shlLimbs n a s = valueZero n :=
  eq_limbsN (shlLimbs_length n a s) (by rw [val_shlLimbs, if_neg (not_lt.mpr hs)])

theorem lsrLimbs_of_width_le (ha : a.length = n) {s : Nat} (hs : 64 * n ≤ s) :
    lsrLimbs n a s = valueZero n :=
  eq_limbsN (lsrLimbs_length n a s) (by rw [val_lsrLimbs ha, if_neg (not_lt.mpr hs)])

/-! ### Two shifts (R178, R180) -/

theorem shlLimbs_shlLimbs (n : Nat) (a : Value) (s t : Nat) :
    shlLimbs n (shlLimbs n a s) t = shlLimbs n a (s + t) := by
  rw [shlLimbs_eq_limbsN, val_shlLimbs_eq_mod, ← limbsN_mod, Nat.mod_mul_mod, limbsN_mod,
    Nat.mul_assoc, ← Nat.pow_add, ← shlLimbs_eq_limbsN]

theorem lsrLimbs_lsrLimbs (ha : a.length = n) (s t : Nat) :
    lsrLimbs n (lsrLimbs n a s) t = lsrLimbs n a (s + t) := by
  rw [lsrLimbs_eq_limbsN (lsrLimbs_length n a s), val_lsrLimbs_eq_div ha, Nat.div_div_eq_div_mul,
    ← Nat.pow_add, ← lsrLimbs_eq_limbsN ha]

/-- R178: a right shift after a left shift leaves the bits that were not pushed out. -/
theorem val_lsrLimbs_shlLimbs (a : Value) {s : Nat} (hs : s ≤ 64 * n) :
    val (lsrLimbs n (shlLimbs n a s) s) = val a % 2 ^ (64 * n - s) := by
  rw [val_lsrLimbs_eq_div (shlLimbs_length n a s), val_shlLimbs_eq_mod, ← pow_sub_mul_pow 2 hs,
    Nat.mul_mod_mul_right, Nat.mul_div_cancel _ (Nat.two_pow_pos s)]

/-- R178: a left shift after a right shift clears the low bits. -/
theorem val_shlLimbs_lsrLimbs (ha : a.length = n) (s : Nat) :
    val (shlLimbs n (lsrLimbs n a s) s) = val a - val a % 2 ^ s := by
  rw [val_shlLimbs_eq_mod, val_lsrLimbs_eq_div ha, Nat.div_mul_self_eq_mod_sub_self,
    Nat.mod_eq_of_lt ((Nat.sub_le _ _).trans_lt (val_lt_of_length ha))]

end

/-! ### The laws on the responses -/

/-- Settles O50: the laws of the two shifts one after the other, and the condition by the meaning of the
count. -/
theorem shiftRoundTrip : Obligations.ShiftRoundTrip := by
  intro cfg a s ha hs
  have hlsr_shl := val_lsrLimbs_shlLimbs a hs.le
  refine ⟨?condition, ⟨_, _, execLo_shl ha ha s,
      execLo_lsr (shlLimbs_length _ _ _) (shlLimbs_length _ _ _) s, hlsr_shl, fun hlt => ?undone⟩,
    ⟨_, _, execLo_lsr ha ha s, execLo_shl (lsrLimbs_length _ _ _) (lsrLimbs_length _ _ _) s,
      val_shlLimbs_lsrLimbs ha _⟩⟩
  case condition =>
    rw [clz_eq_leadingZeros ha, le_leadingZeros_iff (val_lt_of_length ha) hs.le]
  case undone =>
    exact val_inj ((lsrLimbs_length _ _ _).trans ha.symm) (hlsr_shl.trans (Nat.mod_eq_of_lt hlt))

/-- Settles O51: the shifted limbs themselves are `a`, or zero. -/
theorem shiftByZeroAndOverWide : Obligations.ShiftByZeroAndOverWide := by
  intro cfg a b s ha hb
  refine ⟨?shlZero, ?lsrZero, fun hs => ⟨?shlWide, ?lsrWide⟩⟩
  case shlZero => exact (execLo_shl ha hb 0).trans (congrArg some (shlLimbs_zero ha))
  case lsrZero => exact (execLo_lsr ha hb 0).trans (congrArg some (lsrLimbs_zero ha))
  case shlWide => rw [execLo_shl ha hb, shlLimbs_of_width_le hs]
  case lsrWide => rw [execLo_lsr ha hb, lsrLimbs_of_width_le ha hs]

theorem execLo_mul {cfg : Config} {a b : Value} (ha : a.length = cfg.limbs) (hb : b.length = cfg.limbs)
    (sh : BitVec 64) : execLo cfg ⟨0xA, a, b, sh⟩ = some (limbsN cfg.limbs (val a * val b)) := by
  rw [execLo_reference (i := .mul ⟨a, b, sh⟩) rfl (wf_iff.mpr ⟨ha, hb⟩), ← limbsN_mod _ (val a * val b)]
  rfl

/-- R180: the highest bit of a number is the bit that doubling it pushes out. -/
theorem two_pow_le_add_self_iff {w a : Nat} (hw : 0 < w) (ha : a < 2 ^ w) :
    2 ^ w ≤ a + a ↔ a.testBit (w - 1) = true := by
  have hdouble := Nat.two_pow_pred_add_two_pow_pred hw
  refine ⟨fun hle => ?_, fun hbit => ?_⟩
  · exact Nat.testBit_of_two_pow_le_and_two_pow_add_one_gt (by omega)
      (by rwa [Nat.sub_one_add_one hw.ne'])
  · have hge := Nat.ge_two_pow_of_testBit hbit
    omega

/-- Settles O52: amounts add up, SHL is the product with the power, and doubling carries out the highest
bit. -/
theorem shiftLaws : Obligations.ShiftLaws := by
  intro cfg a s1 s2 ha
  have hsum (h : s1.toNat + s2.toNat < 2 ^ 64) :
      (BitVec.ofNat 64 (s1.toNat + s2.toNat)).toNat = s1.toNat + s2.toNat := Nat.mod_eq_of_lt h
  refine ⟨⟨_, _, execLo_shl ha ha s1, execLo_shl (shlLimbs_length _ _ _) (shlLimbs_length _ _ _) s2,
      fun h => ?shlSum, fun h => ?shlWide⟩,
    ⟨_, _, execLo_lsr ha ha s1, execLo_lsr (lsrLimbs_length _ _ _) (lsrLimbs_length _ _ _) s2,
      fun h => ?lsrSum, fun h => ?lsrWide⟩,
    fun hs => ?product, ⟨_, _, execLo_shl ha ha 1, execN_add ha ha 0, ?doubled, ?dropped⟩⟩
  case shlSum => rw [execLo_shl ha ha, hsum h, shlLimbs_shlLimbs]
  case shlWide => rw [shlLimbs_shlLimbs, shlLimbs_of_width_le h]
  case lsrSum => rw [execLo_lsr ha ha, hsum h, lsrLimbs_lsrLimbs ha]
  case lsrWide => rw [lsrLimbs_lsrLimbs ha, lsrLimbs_of_width_le ha h]
  case product =>
    have hpow : val (limbsN cfg.limbs (2 ^ s1.toNat)) = 2 ^ s1.toNat :=
      val_limbsN_of_lt (Nat.pow_lt_pow_right Nat.one_lt_two hs)
    rw [execLo_shl ha ha, execLo_mul ha (limbsN_length _ _), hpow, shlLimbs_eq_limbsN]
  case doubled =>
    rw [rLo_limbsN, referenceAdd, limbsN_mod, shlLimbs_eq_limbsN, ← Nat.mul_two]
    rfl
  case dropped =>
    have hwidth : 0 < cfg.width := Nat.mul_pos (by decide) cfg.limbs_pos
    have hlt : val a < 2 ^ cfg.width := val_lt_of_length ha
    rw [referenceAdd_flag hlt hlt, Bool.eq_iff_iff, decide_eq_true_iff,
      two_pow_le_add_self_iff hwidth hlt]

end Sys2Proof.Machine
end

section
/-! SUPPORT and settlements of the family 45_mul.md: the contracts of MUL and MULX (R190, R191), which are
the reference's; the truncated rows (R195); the product column by column (R202); and the laws on the
responses (R196, R197, R199), those of `r_lo` in the ring of residues modulo `2^W`. -/

namespace Sys2Proof

open Finset (range)

/-- R12: a value is the sum of its limbs, each weighted by its place. -/
theorem val_eq_sum (a : Value) : val a = ∑ i ∈ range a.length, 2 ^ (64 * i) * (limb a i).toNat := by
  induction a with
  | nil => rfl
  | cons x xs ih =>
    simp only [List.length_cons, Finset.sum_range_succ', limb_cons_succ, limb_cons_zero, pow_limbs_succ,
      Nat.mul_assoc, ← Finset.mul_sum, ← ih, val_cons, Nat.mul_zero, Nat.pow_zero, Nat.one_mul]
    exact Nat.add_comm _ _

theorem limb_zero_toNat {a : Value} (h : val a < 2 ^ 64) : (limb a 0).toNat = val a := by
  rw [limb_toNat, Nat.mul_zero, Nat.pow_zero, Nat.div_one, Nat.mod_eq_of_lt h]

/-- A number of one limb as a value of `n` limbs. -/
theorem val_limbsN_of_lt_limb {n v : Nat} (hn : 0 < n) (hv : v < 2 ^ 64) : val (limbsN n v) = v :=
  val_limbsN_of_lt (hv.trans_le (Nat.pow_le_pow_right Nat.two_pos (Nat.le_mul_of_pos_right 64 hn)))

/-- A sum taken fibre by fibre, each fibre with its weight. -/
theorem sum_weighted_fibers {ι : Type} {s : Finset ι} {g : ι → Nat} {m : Nat}
    (hg : ∀ p ∈ s, g p < m) (w : Nat → Nat) (f : ι → Nat) :
    ∑ k ∈ range m, w k * ∑ p ∈ s with g p = k, f p = ∑ p ∈ s, w (g p) * f p := by
  rw [← Finset.sum_fiberwise_of_maps_to (fun p hp => Finset.mem_range.mpr (hg p hp))]
  refine Finset.sum_congr rfl fun k _ => ?_
  rw [Finset.mul_sum]
  refine Finset.sum_congr rfl fun p hp => ?_
  rw [(Finset.mem_filter.mp hp).2]

namespace Machine

/-! ### The contracts (R190, R191) -/

/-- Settles O11: the number is the reference's. -/
theorem mulDeliversTruncatedProduct : Obligations.MulDeliversTruncatedProduct := fun o s h =>
  ⟨rfl, (everyInstructionAgreesWithTheReference (.mul o) s h).1⟩

/-- Settles O12: the number and its bound are the reference's. -/
theorem mulxDeliversFullProduct : Obligations.MulxDeliversFullProduct := by
  intro o s h
  obtain ⟨hexec, hlt⟩ := everyInstructionAgreesWithTheReference (.mulx o) s h
  exact ⟨rfl, hlt, hexec⟩

/-! ### The truncated rows (R195) -/

theorem truncatedProduct_eq_take (cap : Cap) (n : Nat) (a b : Value) :
    truncatedProduct cap n a b = (fullProduct cap n a b).take n := by
  have hwork : (List.replicate (2 * n) 0#64).take n = List.replicate n 0#64 := by
    rw [List.take_replicate, Nat.min_eq_left (Nat.le_mul_of_pos_left n Nat.two_pos)]
  rw [truncatedProduct, ← hwork, mulRows_take, fullProduct]

/-- R27: a result of `n` limbs has `n` zero limbs above it. -/
theorem extend_of_length {n : Nat} {xs : Value} (h : xs.length = n) :
    extend n xs = xs ++ List.replicate n 0#64 := by
  rw [extend, h, Nat.two_mul, Nat.add_sub_cancel]

/-- Settles O40: rows on a shorter working result give the low limbs, and these are the result of MUL. -/
theorem truncatedRowsAreTheLowHalf : Obligations.TruncatedRowsAreTheLowHalf := by
  refine ⟨truncatedProduct_eq_take, fun o s h => ?_⟩
  have hlen : (result s.cfg.cap s.cfg.limbs (.mul o)).1.length = s.cfg.limbs := result_length h
  rw [exec_of_wf (i := .mul o) h, extend_of_length hlen, truncatedProduct_eq_take]
  rfl

/-! ### The columns (R202) -/

/-- The limb pairs of two values of `n` limbs. -/
def limbPairs (n : Nat) : Finset (Nat × Nat) := range n ×ˢ range n

theorem mem_limbPairs {n : Nat} {p : Nat × Nat} : p ∈ limbPairs n ↔ p.1 < n ∧ p.2 < n := by
  simp [limbPairs]

theorem mem_columnPairs {n k : Nat} {p : Nat × Nat} :
    p ∈ columnPairs n k ↔ p ∈ limbPairs n ∧ p.1 + p.2 = k := by
  obtain ⟨i, j⟩ := p
  simp [columnPairs, mem_limbPairs, and_assoc]

theorem nodup_columnPairs (n k : Nat) : (columnPairs n k).Nodup := by
  refine List.nodup_flatMap.mpr ⟨fun i _ => ?same, List.nodup_range.imp fun hne => ?distinct⟩
  case same => exact (List.nodup_range.filter _).map (Prod.mk_right_injective i)
  case distinct =>
    intro p hp hq
    obtain ⟨_, -, rfl⟩ := List.mem_map.mp hp
    obtain ⟨_, -, h⟩ := List.mem_map.mp hq
    exact hne (congrArg Prod.fst h).symm

theorem sum_columnPairs (n k : Nat) (f : Nat × Nat → Nat) :
    ((columnPairs n k).map f).sum = ∑ p ∈ limbPairs n with p.1 + p.2 = k, f p := by
  rw [← List.sum_toFinset f (nodup_columnPairs n k)]
  congr 1
  ext p
  rw [List.mem_toFinset, mem_columnPairs, Finset.mem_filter]

/-- A column has at most one pair for each limb of `a`. -/
theorem sum_columnPairs_le (n k : Nat) (f : Nat × Nat → Limb) :
    ((columnPairs n k).map fun p => (f p).toNat).sum ≤ n * (2 ^ 64 - 1) := by
  have hcard : (Finset.filter (fun p => p.1 + p.2 = k) (limbPairs n)).card ≤ (range n).card := by
    refine Finset.card_le_card_of_injOn Prod.fst (fun p hp => ?maps) fun p hp q hq hpq => ?inj
    case maps =>
      obtain ⟨hmem, -⟩ := Finset.mem_filter.mp hp
      exact Finset.mem_coe.mpr (Finset.mem_range.mpr (mem_limbPairs.mp hmem).1)
    case inj =>
      have hp' := (Finset.mem_filter.mp hp).2
      have hq' := (Finset.mem_filter.mp hq).2
      exact Prod.ext hpq (by omega)
  rw [sum_columnPairs]
  refine (Finset.sum_le_card_nsmul _ _ (2 ^ 64 - 1) fun p _ => ?limb).trans ?pairs
  case limb => exact Nat.le_sub_one_of_lt (f p).isLt
  case pairs =>
    rw [Finset.card_range] at hcard
    exact Nat.mul_le_mul_right _ hcard

section

variable (cap : Cap) (n : Nat) (a b : Value)

theorem columnSum_le (k : Nat) : columnSum cap n a b k ≤ 2 * n * (2 ^ 64 - 1) := by
  have hlow := sum_columnPairs_le n k fun p => (mulFull cap (limb a p.1) (limb b p.2)).1
  have hhigh := sum_columnPairs_le n (k - 1) fun p => (mulFull cap (limb a p.1) (limb b p.2)).2
  rw [columnSum, Nat.mul_assoc, Nat.two_mul]
  refine Nat.add_le_add hlow ?_
  split
  case isTrue => exact Nat.zero_le _
  case isFalse => exact hhigh

/-- R202: the high half of a product belongs one column up. -/
theorem columnSum_eq (k : Nat) : columnSum cap n a b k =
    (∑ p ∈ limbPairs n with p.1 + p.2 = k, (mulFull cap (limb a p.1) (limb b p.2)).1.toNat) +
    ∑ p ∈ limbPairs n with p.1 + p.2 + 1 = k, (mulFull cap (limb a p.1) (limb b p.2)).2.toNat := by
  cases k with
  | zero => simp [columnSum, sum_columnPairs]
  | succ k => simp [columnSum, sum_columnPairs]

/-- What the columns below `k` leave in the accumulator. -/
def columnCarry : Nat → Nat
  | 0 => 0
  | k + 1 => columnAcc cap n a b k / 2 ^ 64

theorem columnAcc_eq (k : Nat) :
    columnAcc cap n a b k = columnCarry cap n a b k + columnSum cap n a b k := by
  cases k with
  | zero => exact (Nat.zero_add _).symm
  | succ k => rfl

/-- R202: the accumulator's bound, from the `2n` halves of a column and the carry. -/
theorem columnAcc_lt {n : Nat} (hn : 0 < n) (k : Nat) : columnAcc cap n a b k < 2 * n * 2 ^ 64 := by
  induction k with
  | zero =>
    have hsum := columnSum_le cap n a b 0
    rw [columnAcc]
    omega
  | succ k ih =>
    have hsum := columnSum_le cap n a b (k + 1)
    rw [columnAcc]
    omega

/-- The limbs stored for `m` columns, and the carry, hold the sum of the columns. -/
theorem val_columnLimbs (m : Nat) :
    val ((List.range m).map fun k => BitVec.ofNat 64 (columnAcc cap n a b k)) +
      2 ^ (64 * m) * columnCarry cap n a b m =
    ∑ k ∈ range m, 2 ^ (64 * k) * columnSum cap n a b k := by
  induction m with
  | zero => rfl
  | succ m ih =>
    have hacc := columnAcc_eq cap n a b m
    have hsplit := Nat.mod_add_div (columnAcc cap n a b m) (2 ^ 64)
    rw [Finset.sum_range_succ, ← ih, List.range_succ, List.map_append, val_append, List.length_map,
      List.length_range, List.map_singleton, val_cons, val_nil, BitVec.toNat_ofNat, pow_limbs_succ,
      columnCarry, Nat.mul_zero, Nat.add_zero, Nat.add_assoc, Nat.add_assoc, ← Nat.mul_add,
      ← hacc, Nat.mul_comm (2 ^ 64), Nat.mul_assoc, ← Nat.mul_add, hsplit]

end

/-- R202: the columns together are the product: half by half, each pair of limbs gives its product. -/
theorem sum_columnSum (cap : Cap) {n : Nat} {a b : Value} (ha : a.length = n) (hb : b.length = n) :
    ∑ k ∈ range (2 * n), 2 ^ (64 * k) * columnSum cap n a b k = val a * val b := by
  have hhigh : ∀ p ∈ limbPairs n, p.1 + p.2 + 1 < 2 * n := fun p hp => by
    have hlt := mem_limbPairs.mp hp
    omega
  have hlow : ∀ p ∈ limbPairs n, p.1 + p.2 < 2 * n := fun p hp => Nat.lt_of_succ_lt (hhigh p hp)
  simp only [columnSum_eq, Nat.mul_add, Finset.sum_add_distrib]
  rw [sum_weighted_fibers hlow fun k => 2 ^ (64 * k), sum_weighted_fibers hhigh fun k => 2 ^ (64 * k),
    ← Finset.sum_add_distrib, val_eq_sum a, val_eq_sum b, ha, hb, Finset.sum_mul_sum,
    ← Finset.sum_product']
  refine Finset.sum_congr rfl fun p _ => ?_
  rw [pow_limbs_succ, Nat.mul_comm (2 ^ 64), Nat.mul_assoc, ← Nat.mul_add, mulFull_spec, Nat.mul_add,
    Nat.pow_add, Nat.mul_mul_mul_comm]

theorem columnProduct_length (cap : Cap) (n : Nat) (a b : Value) :
    (columnProduct cap n a b).length = 2 * n := by
  rw [columnProduct, List.length_map, List.length_range]

/-- R202: the product fits the limbs stored, so nothing is carried out of them. -/
theorem val_columnProduct (cap : Cap) {n : Nat} {a b : Value} (ha : a.length = n) (hb : b.length = n) :
    val (columnProduct cap n a b) = val a * val b := by
  have hsum := (val_columnLimbs cap n a b (2 * n)).trans (sum_columnSum cap ha hb)
  have hfull := val_fullProduct cap ha hb
  rw [← hfull] at hsum ⊢
  exact (add_mul_unique (k := 0) (val_lt_of_length (columnProduct_length cap n a b))
    (val_lt_of_length (fullProduct_length cap n a b)) hsum).1

/-- Settles O41: both are the `2n` limbs of the product. -/
theorem columnProductIsTheRowProduct : Obligations.ColumnProductIsTheRowProduct := by
  intro cap n a b ha hb
  exact ⟨val_inj ((columnProduct_length cap n a b).trans (fullProduct_length cap n a b).symm)
      ((val_columnProduct cap ha hb).trans (val_fullProduct cap ha hb).symm),
    fun hn k => columnAcc_lt cap a b hn k⟩

/-! ### The laws on the responses (R196, R197, R199) -/

section

variable {cfg : Config} {a b : Value}

theorem execN_mul (ha : a.length = cfg.limbs) (hb : b.length = cfg.limbs) (sh : BitVec 64) :
    execN cfg ⟨0xA, a, b, sh⟩ =
      some ⟨limbsN (2 * cfg.limbs) (referenceMul cfg.width (val a) (val b)), false⟩ :=
  execN_reference (i := .mul ⟨a, b, sh⟩) rfl (wf_iff.mpr ⟨ha, hb⟩)

theorem execN_mulx (ha : a.length = cfg.limbs) (hb : b.length = cfg.limbs) (sh : BitVec 64) :
    execN cfg ⟨0xB, a, b, sh⟩ =
      some ⟨limbsN (2 * cfg.limbs) (referenceMulx (val a) (val b)), false⟩ :=
  execN_reference (i := .mulx ⟨a, b, sh⟩) rfl (wf_iff.mpr ⟨ha, hb⟩)

theorem execN_mulfull (ha : a.length = cfg.limbs) (hb : b.length = cfg.limbs) (sh : BitVec 64) :
    execN cfg ⟨0x0, a, b, sh⟩ =
      some ⟨limbsN (2 * cfg.limbs) (referenceMulx (limb a 0).toNat (limb b 0).toNat), false⟩ :=
  execN_reference (i := .mulfull ⟨a, b, sh⟩) rfl (wf_iff.mpr ⟨ha, hb⟩)

/-- R199: on numbers of one limb MULX is MULFULL. -/
theorem execN_mulx_eq_mulfull (ha : a.length = cfg.limbs) (hb : b.length = cfg.limbs)
    (ha64 : val a < 2 ^ 64) (hb64 : val b < 2 ^ 64) (sh : BitVec 64) :
    execN cfg ⟨0xB, a, b, sh⟩ = execN cfg ⟨0x0, a, b, sh⟩ := by
  rw [execN_mulx ha hb, execN_mulfull ha hb, limb_zero_toNat ha64, limb_zero_toNat hb64]

/-- R190 on `r_lo`: MUL multiplies residues. -/
theorem execLo_mul_of_residue {x : Value} (ha : a.length = cfg.limbs) (hb : b.length = cfg.limbs)
    (hx : x.length = cfg.limbs)
    (h : residue cfg.limbs x = residue cfg.limbs a * residue cfg.limbs b) (sh : BitVec 64) :
    execLo cfg ⟨0xA, a, b, sh⟩ = some x := by
  rw [execLo_mul ha hb, Option.some_inj, limbsN_eq_iff_residue hx, h, Nat.cast_mul, residue, residue]

/-- R197: after `k` additions the sum is `k · val a` modulo `2^W`. -/
theorem repeatAdd_eq (ha : a.length = cfg.limbs) (k : Nat) :
    repeatAdd cfg a k = some (limbsN cfg.limbs (val a * k)) := by
  induction k with
  | zero => rfl
  | succ k ih =>
    rw [repeatAdd, ih, Option.bind_some]
    refine execLo_add (limbsN_length _ _) ha (limbsN_length _ _) ?_ 0
    rw [residue_limbsN, residue_limbsN, Nat.mul_succ, Nat.cast_add, residue]

end

/-- Settles O53: both are the `N` limbs of the product. -/
theorem mulIsTheLowHalfOfMulx : Obligations.MulIsTheLowHalfOfMulx := fun _ a b sh ha hb =>
  ⟨_, execLo_mul ha hb sh, execLo_reference (i := .mulx ⟨a, b, sh⟩) rfl (wf_iff.mpr ⟨ha, hb⟩)⟩

/-- Settles O54: a limb holds `k`, so MUL gives the `N` limbs of `k · val a`. -/
theorem scalarProductIsRepeatedAddition : Obligations.ScalarProductIsRepeatedAddition := by
  intro cfg a k ha hk
  refine ⟨_, ?_, repeatAdd_eq ha k⟩
  have hmul := execLo_mul ha (limbsN_length cfg.limbs k) 0
  rwa [val_limbsN_of_lt_limb cfg.limbs_pos hk] at hmul

/-- R199: on two one-limb values MULX is answered with `lo` and `hi`. -/
theorem execN_mulx_limbs (cfg : Config) (x y : Limb) : ∃ r,
    execN cfg ⟨0xB, limbsN cfg.limbs x.toNat, limbsN cfg.limbs y.toNat, 0⟩ = some r ∧
    execN cfg ⟨0x0, limbsN cfg.limbs x.toNat, limbsN cfg.limbs y.toNat, 0⟩ = some r ∧
    limb r.r 0 = (mulFull cfg.cap x y).1 ∧ limb r.r 1 = (mulFull cfg.cap x y).2 := by
  have hval (v : Limb) : val (limbsN cfg.limbs v.toNat) = v.toNat :=
    val_limbsN_of_lt_limb cfg.limbs_pos v.isLt
  have hlt (v : Limb) : val (limbsN cfg.limbs v.toNat) < 2 ^ 64 := (hval v).trans_lt v.isLt
  have hlimb (v : Limb) : limb (limbsN cfg.limbs v.toNat) 0 = v :=
    BitVec.eq_of_toNat_eq ((limb_zero_toNat (hlt v)).trans (hval v))
  have hfull := execN_of_wf (cfg := cfg)
    (c := ⟨0x0, limbsN cfg.limbs x.toNat, limbsN cfg.limbs y.toNat, 0⟩)
    (i := .mulfull ⟨limbsN cfg.limbs x.toNat, limbsN cfg.limbs y.toNat, 0⟩) rfl
    (wf_iff.mpr ⟨limbsN_length _ _, limbsN_length _ _⟩)
  rw [result, operandX, operandY, hlimb, hlimb] at hfull
  have hmulx := execN_mulx_eq_mulfull (limbsN_length _ _) (limbsN_length _ _) (hlt x) (hlt y) 0
  exact ⟨_, hmulx.trans hfull, hfull, rfl, rfl⟩

/-- Settles O55: the laws in `r_lo` hold in the ring of residues, and MULFULL multiplies numbers of one
limb exactly. -/
theorem productLaws : Obligations.ProductLaws := by
  intro cfg a b c ha hb hc
  obtain ⟨ab, hab, rab⟩ := exists_value_of_residue cfg.limbs
    (residue cfg.limbs a * residue cfg.limbs b)
  obtain ⟨ac, hac, rac⟩ := exists_value_of_residue cfg.limbs
    (residue cfg.limbs a * residue cfg.limbs c)
  obtain ⟨bc, hbc, rbc⟩ := exists_value_of_residue cfg.limbs
    (residue cfg.limbs b * residue cfg.limbs c)
  obtain ⟨abc, habc, rabc⟩ := exists_value_of_residue cfg.limbs
    (residue cfg.limbs a * residue cfg.limbs b * residue cfg.limbs c)
  obtain ⟨sum, hsum, rsum⟩ := exists_value_of_residue cfg.limbs
    (residue cfg.limbs b + residue cfg.limbs c)
  obtain ⟨x, hx, rx⟩ := exists_value_of_residue cfg.limbs
    (residue cfg.limbs a * residue cfg.limbs b + residue cfg.limbs a * residue cfg.limbs c)
  refine ⟨?mulComm, ?mulxComm,
    ⟨ab, bc, abc, execLo_mul_of_residue ha hb hab rab 0, execLo_mul_of_residue hb hc hbc rbc 0,
      execLo_mul_of_residue hab hc habc (by rw [rabc, rab]) 0,
      execLo_mul_of_residue ha hbc habc (by rw [rabc, rbc, mul_assoc]) 0⟩,
    ⟨sum, ab, ac, x, execLo_add hb hc hsum rsum 0, execLo_mul_of_residue ha hb hab rab 0,
      execLo_mul_of_residue ha hc hac rac 0,
      execLo_mul_of_residue ha hsum hx (by rw [rx, rsum, mul_add]) 0,
      execLo_add hab hac hx (by rw [rx, rab, rac]) 0⟩,
    fun h1 => ?oneLimbBlock, execN_mulx_limbs cfg⟩
  case mulComm => rw [execN_mul ha hb, execN_mul hb ha, referenceMul, Nat.mul_comm (val a), referenceMul]
  case mulxComm => rw [execN_mulx ha hb, execN_mulx hb ha, referenceMulx, Nat.mul_comm (val a),
    referenceMulx]
  case oneLimbBlock =>
    have hlt {v : Value} (hv : v.length = cfg.limbs) : val v < 2 ^ 64 :=
      val_lt_of_length (hv.trans h1)
    exact ⟨_, execN_mulx ha hb 0,
      (execN_mulx_eq_mulfull ha hb (hlt ha) (hlt hb) 0).symm.trans (execN_mulx ha hb 0)⟩

end Machine

end Sys2Proof
end

section
/-! SUPPORT and settlements of the family 60_exceptions.md: a command of the block is always answered
(R220), so a run of such commands has no stop (R255). -/

namespace Sys2Proof.Machine

/-- Settles O25: the oldest command is answered with the response it gets issued alone; and a fault cannot
be the outcome of a step, since R220 leaves the type of faults without a constructor (log entry 18). -/
theorem everyAcceptableCommandIsAnswered : Obligations.EveryAcceptableCommandIsAnswered := by
  refine ⟨fun s c rest hp ha => ?answered, fun s f => nomatch f⟩
  case answered =>
    obtain ⟨r, -, hstep⟩ := step_of_acceptable hp ha
    exact ⟨r, hstep⟩

/-- R258: a step leaves only commands the host may issue, since it takes the oldest away and adds none. -/
theorem acceptable_of_step_eq_next {s t : State} (h : step s = .next t) :
    ∀ c ∈ t.pending, acceptable t.cfg.limbs c = true := by
  obtain ⟨ha, ⟨-, rfl⟩ | ⟨c, rest, i, hp, -, -, rfl⟩⟩ := step_eq_next h
  · exact ha
  · exact fun d hd => ha d (hp ▸ List.mem_cons_of_mem c hd)

/-- A run is safe from every state of a set that each of its states steps back into. -/
theorem safeRun_of_invariant {P : State → Prop} (hP : ∀ s, P s → ∃ t, step s = .next t ∧ P t)
    (k : Nat) {s : State} (h : P s) : SafeRun k s := by
  induction k generalizing s with
  | zero => exact ⟨s, rfl⟩
  | succ k ih =>
    obtain ⟨t, hstep, ht⟩ := hP s h
    obtain ⟨u, hrun⟩ := ih ht
    exact ⟨u, (run_of_step (M := core) hstep k).trans hrun⟩

/-- Settles O34: a state whose pending commands are acceptable steps to another such state. -/
theorem acceptableRunsAreSafe : Obligations.AcceptableRunsAreSafe := by
  intro k s ha
  refine safeRun_of_invariant (P := fun s => ∀ c ∈ s.pending, acceptable s.cfg.limbs c = true)
    (fun s hs => ?_) k ha
  obtain ⟨t, hstep⟩ := step_eq_next_of_acceptable hs
  exact ⟨t, hstep, acceptable_of_step_eq_next hstep⟩

end Sys2Proof.Machine
end

section
/-! SUPPORT and settlements of the family 70_reset_and_hazards.md: what a reset and the first command after
it do (R250), and operands of another limb count (R252). -/

namespace Sys2Proof.Machine

/-- Settles O15: every instruction answers through `answer`, which refuses such a record. -/
theorem otherLimbCountIsRefused : Obligations.OtherLimbCountIsRefused := fun _ _ h =>
  exec_of_not_wf h

/-- R64: acceptable commands pending give the guard nothing to refuse. -/
theorem guardPending_of_acceptable {s : State}
    (ha : ∀ d ∈ s.pending, acceptable s.cfg.limbs d = true)
    (k : Host.Outcome State Fault Refusal) : guardPending s k = k :=
  guardPending_of_none (pendingRefusal_eq_none.mpr ha) k

/-- R250: a reset of acceptable commands drops them and nothing else. -/
theorem applyReset_of_acceptable {s : State}
    (ha : ∀ d ∈ s.pending, acceptable s.cfg.limbs d = true) :
    s.applyReset = .next s.dropPending :=
  guardPending_of_acceptable ha _

/-- R258: the host may issue an acceptable command behind acceptable ones. -/
theorem tryIssue_of_acceptable {s : State} {c : Cmd}
    (ha : ∀ d ∈ s.pending, acceptable s.cfg.limbs d = true)
    (hc : acceptable s.cfg.limbs c = true) :
    s.tryIssue c = .next (s.issue c) :=
  guardPending_of_acceptable (s := s.issue c)
    (List.forall_mem_append.mpr ⟨ha, List.forall_mem_singleton.mpr hc⟩) _

/-- A run without events ends in the state it begins in. -/
theorem runEvents_nil_of_acceptable {s : State}
    (ha : ∀ d ∈ s.pending, acceptable s.cfg.limbs d = true) :
    runEvents [] s = .next s :=
  guardPending_of_acceptable ha _

/-- A run takes its first event, then the others. -/
theorem runEvents_cons_of_next {e : Event} {s t : State} (h : applyEvent e s = .next t)
    (es : List Event) : runEvents (e :: es) s = runEvents es t := by
  rw [runEvents, h]

/-- R14, R250: with nothing pending, as after a reset, a command issued is answered by the next step with
its response of `exec_N`, delivered behind those delivered before. -/
theorem runEvents_issue_step {s : State} {c : Cmd} (hp : s.pending = [])
    (hc : acceptable s.cfg.limbs c = true) :
    ∃ r, execN s.cfg c = some r ∧ runEvents [.issue c, .step] s = .next (s.deliver r) := by
  have hnone : ∀ d ∈ s.pending, acceptable s.cfg.limbs d = true := by simp [hp]
  have hissued : (s.issue c).pending = [c] := by rw [State.issue, hp, List.nil_append]
  obtain ⟨r, hr, hstep⟩ := step_of_acceptable hissued
    (hissued ▸ List.forall_mem_singleton.mpr hc)
  have hback : ({ s.issue c with pending := [] } : State) = s := by rw [State.issue, ← hp]
  rw [hback] at hstep
  refine ⟨r, hr, ?_⟩
  calc runEvents [.issue c, .step] s
      = runEvents [.step] (s.issue c) :=
        runEvents_cons_of_next (e := .issue c) (tryIssue_of_acceptable hnone hc) _
    _ = runEvents [] (s.deliver r) := runEvents_cons_of_next (e := .step) hstep _
    _ = .next (s.deliver r) := runEvents_nil_of_acceptable (s := s.deliver r) hnone

/-- Settles O28: a reset of acceptable commands leaves none pending, so the command issued next is
answered alone; any other pending command stops the reset. -/
theorem resetDropsPendingKeepsDelivered : Obligations.ResetDropsPendingKeepsDelivered := by
  refine fun s => ⟨fun ha => ?acceptable, fun d hd h => ?refused⟩
  case acceptable =>
    exact ⟨s.dropPending, applyReset_of_acceptable ha, rfl,
      fun c hc => runEvents_issue_step (s := s.dropPending) rfl hc⟩
  case refused =>
    obtain ⟨e, he⟩ := guardPending_of_not_acceptable hd h
    exact ⟨e, he _⟩

end Sys2Proof.Machine
end
